-- ==== Sys2Proof/Word.lean ====
section
/-! DEFINITION. The two value types of the spec (00_scope.md R6): a word is 4 bytes, a byte is 8 bits. -/

namespace Sys2Proof

/-- A 32-bit pattern: a stack slot, an ALU operand or result, a memory word (R6, R23). `BitVec.toInt` is the spec's
`signed(v)`, `BitVec.toNat` its `unsigned(v)`. -/
abbrev Word := BitVec 32

/-- An 8-bit pattern: a program byte or a memory byte (R6). -/
abbrev Byte := BitVec 8

end Sys2Proof
end

