-- ==== Sys2Proof/Syntax.lean ====
section
/-! DEFINITION. The instructions: one constructor for each row of spec/opcode_table.json (30_encoding.md R83), with the
immediates of R82 as its arguments. All other operands come from the stack. -/

namespace Sys2Proof

/-- The 34 defined instructions and the fallback row for the 222 undefined opcode bytes. -/
inductive Instr where
  /-- 0x00, R100: push a 4-byte immediate. -/
  | push32 (imm : BitVec 32)
  /-- 0x01, R101. -/
  | pop
  /-- 0x02, R120. -/
  | load
  /-- 0x03, R121. -/
  | store
  /-- 0x04, R102: push a 1-byte unsigned immediate. -/
  | push8 (imm : BitVec 8)
  /-- 0x05, R103: push a 2-byte unsigned immediate. -/
  | push16 (imm : BitVec 16)
  /-- 0x06, R104. -/
  | clone
  /-- 0x07, R105. -/
  | loads
  /-- 0x08, R106. -/
  | stors
  /-- 0x09, R107. -/
  | swap
  /-- 0x10, R131. -/
  | jmp
  /-- 0x11, R132. -/
  | jz
  /-- 0x12, R133. -/
  | jnz
  /-- 0x13, R134. -/
  | jg
  /-- 0x14, R135. -/
  | jge
  /-- 0x15, R136. -/
  | je
  /-- 0x16, R137. -/
  | jne
  /-- 0x20, R152. -/
  | and
  /-- 0x21, R153. -/
  | or
  /-- 0x22, R154. -/
  | xor
  /-- 0x23, R155. -/
  | not
  /-- 0x24, R156. -/
  | inc
  /-- 0x25, R157. -/
  | dec
  /-- 0x26, R158. -/
  | add
  /-- 0x27, R159. -/
  | sub
  /-- 0x28, R160. -/
  | shl
  /-- 0x29, R161. -/
  | shr
  /-- 0x2A, R162. -/
  | mul
  /-- 0x2B, R163. -/
  | div
  /-- 0x2C, R164. -/
  | mod
  /-- 0x2D, R165. -/
  | neg
  /-- 0x2E, R166. -/
  | abs
  /-- 0xFE, R180. -/
  | debug
  /-- 0xFF, R181. -/
  | nop
  /-- Any byte of 10..15, 23..31, 47..253 (R84, R182): the byte itself is kept, so that it can be encoded again. -/
  | undefinedOpcode (op : BitVec 8)
  deriving DecidableEq, Repr

end Sys2Proof
end

