-- ==== Sys2Proof/WellFormed.lean ====
section
/-! DEFINITION. Which terms of `Instr` are instructions: every immediate is legal (30_encoding.md R85); the one check is
that the byte of `undefinedOpcode` is undefined (R84). -/

namespace Sys2Proof

/-- The 222 undefined opcode bytes of R84: 10 to 15, 23 to 31, 47 to 253. -/
def isUndefinedOpcode (op : Byte) : Bool :=
  (10 ≤ op.toNat && op.toNat ≤ 15) || (23 ≤ op.toNat && op.toNat ≤ 31) || (47 ≤ op.toNat && op.toNat ≤ 253)

/-- An `undefinedOpcode` term must carry one of the 222 bytes; every other term is well formed. -/
def Instr.wf : Instr → Bool
  | .undefinedOpcode op => isUndefinedOpcode op
  | .push32 _ | .pop | .load | .store | .push8 _ | .push16 _ | .clone | .loads | .stors | .swap
  | .jmp | .jz | .jnz | .jg | .jge | .je | .jne
  | .and | .or | .xor | .not | .inc | .dec | .add | .sub | .shl | .shr | .mul | .div | .mod | .neg | .abs
  | .debug | .nop => true

end Sys2Proof
end

