-- ==== Sys2Proof/Decode.lean ====
section
/-! DEFINITION. The decoder, total on any bytes (30_encoding.md R85), and the encoder, from the formats of R80 to R82 and
the opcode map of R83. -/

namespace Sys2Proof

/-- Why a run of program bytes is no instruction: "The only decode failure is running out of program bytes" (R85). -/
inductive DecodeError where
  /-- There is no opcode byte (10_state.md R32, step T2). -/
  | noOpcode
  /-- The opcode takes `immWidth` immediate bytes and fewer follow it (R32, step T4). -/
  | truncated (immWidth : Nat)
  deriving DecidableEq, Repr

/-- `ImmWidth(op)` (R81): how many immediate bytes follow the opcode byte. -/
def immWidth (op : Byte) : Nat :=
  match op.toNat with
  | 0 => 4
  | 4 => 1
  | 5 => 2
  | _ => 0

/-- The rows of R83 in format `OP`, by opcode; every byte that no row lists is the undefined no-op (R84). The three
opcodes with an immediate (0, 4, 5) never reach this function from `decode`. -/
def decodePlain (op : Byte) : Instr :=
  match op.toNat with
  | 1 => .pop
  | 2 => .load
  | 3 => .store
  | 6 => .clone
  | 7 => .loads
  | 8 => .stors
  | 9 => .swap
  | 16 => .jmp
  | 17 => .jz
  | 18 => .jnz
  | 19 => .jg
  | 20 => .jge
  | 21 => .je
  | 22 => .jne
  | 32 => .and
  | 33 => .or
  | 34 => .xor
  | 35 => .not
  | 36 => .inc
  | 37 => .dec
  | 38 => .add
  | 39 => .sub
  | 40 => .shl
  | 41 => .shr
  | 42 => .mul
  | 43 => .div
  | 44 => .mod
  | 45 => .neg
  | 46 => .abs
  | 254 => .debug
  | 255 => .nop
  | _ => .undefinedOpcode op

/-- The immediate of `push16`, `{ b2, b1 }` (R82). -/
def imm16 (b1 b2 : Byte) : BitVec 16 := b2 ++ b1

/-- The immediate of `push32`, `{ b4, b3, b2, b1 }` (R82). -/
def imm32 (b1 b2 b3 b4 : Byte) : BitVec 32 := b4 ++ b3 ++ b2 ++ b1

/-- The instruction whose opcode byte stands first in `bytes` (R80 to R84); bytes after it are not looked at. -/
def decode (bytes : List Byte) : Except DecodeError Instr :=
  match bytes with
  | [] => .error .noOpcode
  | op :: rest =>
    match op.toNat, rest with
    | 0, b1 :: b2 :: b3 :: b4 :: _ => .ok (.push32 (imm32 b1 b2 b3 b4))
    | 0, _ => .error (.truncated 4)
    | 4, b1 :: _ => .ok (.push8 b1)
    | 4, _ => .error (.truncated 1)
    | 5, b1 :: b2 :: _ => .ok (.push16 (imm16 b1 b2))
    | 5, _ => .error (.truncated 2)
    | _, _ => .ok (decodePlain op)

/-- The opcode byte of each instruction (R83). -/
def opcodeOf (i : Instr) : Byte :=
  match i with
  | .push32 _ => 0x00
  | .pop => 0x01
  | .load => 0x02
  | .store => 0x03
  | .push8 _ => 0x04
  | .push16 _ => 0x05
  | .clone => 0x06
  | .loads => 0x07
  | .stors => 0x08
  | .swap => 0x09
  | .jmp => 0x10
  | .jz => 0x11
  | .jnz => 0x12
  | .jg => 0x13
  | .jge => 0x14
  | .je => 0x15
  | .jne => 0x16
  | .and => 0x20
  | .or => 0x21
  | .xor => 0x22
  | .not => 0x23
  | .inc => 0x24
  | .dec => 0x25
  | .add => 0x26
  | .sub => 0x27
  | .shl => 0x28
  | .shr => 0x29
  | .mul => 0x2A
  | .div => 0x2B
  | .mod => 0x2C
  | .neg => 0x2D
  | .abs => 0x2E
  | .debug => 0xFE
  | .nop => 0xFF
  | .undefinedOpcode op => op

/-- Byte `k` of a word, byte 0 the least significant: the little-endian order of R59 and R82. -/
def byteOf (v : Word) (k : Nat) : Byte := v.extractLsb' (8 * k) 8

/-- The immediate bytes of an instruction, little-endian (R80, R82). -/
def immBytes (i : Instr) : List Byte :=
  match i with
  | .push32 imm => [byteOf imm 0, byteOf imm 1, byteOf imm 2, byteOf imm 3]
  | .push8 imm => [imm]
  | .push16 imm => [imm.extractLsb' 0 8, imm.extractLsb' 8 8]
  | .pop | .load | .store | .clone | .loads | .stors | .swap
  | .jmp | .jz | .jnz | .jg | .jge | .je | .jne
  | .and | .or | .xor | .not | .inc | .dec | .add | .sub | .shl | .shr | .mul | .div | .mod | .neg | .abs
  | .debug | .nop | .undefinedOpcode _ => []

/-- The bytes of an instruction, the opcode byte first (R80). -/
def encode (i : Instr) : List Byte := opcodeOf i :: immBytes i

/-- The length of an instruction in bytes, `1 + ImmWidth(op)` (R81, R34): 5 for `push32`, 2 for `push8`, 3 for `push16`,
1 for every other. -/
def instrLength (i : Instr) : Nat :=
  match i with
  | .push32 _ => 5
  | .push8 _ => 2
  | .push16 _ => 3
  | .pop | .load | .store | .clone | .loads | .stors | .swap
  | .jmp | .jz | .jnz | .jg | .jge | .je | .jne
  | .and | .or | .xor | .not | .inc | .dec | .add | .sub | .shl | .shr | .mul | .div | .mod | .neg | .abs
  | .debug | .nop | .undefinedOpcode _ => 1

/-- The five bytes (the longest instruction) of the number `w`, bits above `nbits` taken as 0, bit 0 the least
significant bit of the first byte: how spec/opcode_table.json numbers an instruction's bits. -/
def tableBytes (nbits w : Nat) : List Byte :=
  [0, 1, 2, 3, 4].map fun k => BitVec.ofNat 8 (w % 2 ^ nbits / 2 ^ (8 * k))

/-- What the decoder reads from the instruction whose bits are `w`, numbered as spec/opcode_table.json numbers them. -/
def decodeTableWord (nbits w : Nat) : Option Instr :=
  match decode (tableBytes nbits w) with
  | .ok i => some i
  | .error _ => none

end Sys2Proof
end

