-- ==== Sys2Proof/Config.lean ====
section
/-! DEFINITION. The parameters of 00_scope.md R5 that size the machine, and the one parameter the spec leaves OPEN. -/

namespace Sys2Proof.Config

/-- `STACK_DEPTH`: the number of stack slots (R5, R21). -/
abbrev stackDepth : Nat := 256

/-- `HEAP_SIZE` in bytes (R5, R52). -/
abbrev heapSize : Nat := 4096

/-- `GFX_SIZE` in bytes (R5, R53). -/
abbrev gfxSize : Nat := 1024

/-- The OPEN parameter behind `CODE_SIZE_MAX` (R5, D5): a constant with no body, so no proof knows its value. Its 31 bits
say the one thing the spec fixes, that it is at most `2^31 - 1`. Log 5. -/
opaque codeSizeMaxBits : BitVec 31

/-- `CODE_SIZE_MAX`: the largest program Load accepts (R5, R231). -/
def codeSizeMax : Nat := codeSizeMaxBits.toNat

end Sys2Proof.Config
end

