-- ==== Sys2Proof/Machine/State.lean ====
section
/-! DEFINITION. The state of the core (10_state.md R20), the tick status, the reasons a step can stop, and reset (R35). -/

namespace Sys2Proof.Machine

/-- The four errors a tick can report (60_exceptions.md R200). -/
inductive TickError where
  /-- A push would move `SP` below 0, or an indexed access is below 0 (R201). -/
  | stackOverflow
  /-- A pop would move `SP` above 256, or an indexed access is at 256 or above (R202). -/
  | stackUnderflow
  /-- Division or modulo by zero (R203). -/
  | arithmeticError
  /-- A program byte at an index `>= codeSize` is fetched (R204). -/
  | fetchOutOfRange
  deriving DecidableEq, Repr

/-- What a tick returns: "exactly one status: `Ok` or one of four errors" (R200). -/
inductive Status where
  | ok
  | error (e : TickError)
  deriving DecidableEq, Repr

/-- Data memory: (address, byte) pairs. The address of a heap byte is its offset; that of a graphics byte is its canonical
data address, 0xA000 plus its offset (20_memory.md R52, R53). An address that is not listed reads as `unlistedByte`. Log 8. -/
abbrev Memory := List Host.Cell

/-- What a byte that no entry lists reads as: 0, the power-on and Clear contents of `heap` and `gfx` (R35, R233, D8). -/
def unlistedByte : Byte := 0

/-- The stack array, `stack[0..255]` (R21): exactly 256 slots, slot 0 first, the length part of the type. -/
abbrev Slots := { slots : List Word // slots.length = Config.stackDepth }

/-- The state of the core: everything 10_state.md R20 enumerates, and `tickStatus`, which is the model's own. -/
structure State where
  /-- `IP` (R29): byte index of the next opcode. -/
  ip : BitVec 32
  /-- `SP` (R22): a 9-bit register holding 0 to 256; 256 is the empty stack. -/
  sp : BitVec 9
  /-- `stack[0..255]` (R21, R23), live and stale slots alike (R27). -/
  stack : Slots
  /-- `heap[0..4095]` and `gfx[0..1023]` (R20, R52, R53). -/
  mem : Memory
  /-- The program Load installed, byte 0 first (R30). Its length is `codeSize`. -/
  program : List Byte
  /-- THE MODEL'S OWN: the status the most recent Tick returned to the host (R200). The core holds it nowhere (R37) and
  no step reads it. Log 2. -/
  tickStatus : Status
  deriving DecidableEq, Repr

/-- `codeSize` (R30): the length of the loaded program, 0 before the first Load. -/
def State.codeSize (s : State) : Nat := s.program.length

/-- Faults of a step: none. Every tick of this core ends with a status and leaves a state from which the next tick runs
(60_exceptions.md R206, R209; 70_reset_and_hazards.md R246), so an error the spec names is a next state (log 3) and
nothing is left that would stop the machine. Safe: there is no constructor to raise. -/
inductive Fault
  deriving DecidableEq, Repr

/-- Refusals. -/
inductive Refusal where
  /-- Raised by an arm of `exec` for an instruction without a meaning. Safe. No arm raises it: all 35 rows have one. -/
  | notModelled (mnemonic : String)
  /-- Raised by the host operation Load for a program longer than `CODE_SIZE_MAX`, which R231 and D5 put outside the
  specification ("a model refuses it"). No step raises it. Safe. -/
  | programTooLong
  deriving DecidableEq, Repr

/-- The machine after PowerOn (R35, R232): `IP` 0, `SP` 256, memory all 0, no program. The spec gives the stack slots no
value: every slot is 0 here, DESIGN CHOICE, log 1. `tickStatus` is `ok` before any tick, DESIGN CHOICE, log 2. -/
def State.reset : State where
  ip := 0
  sp := 256
  stack := ⟨List.replicate Config.stackDepth 0, List.length_replicate⟩
  mem := []
  program := []
  tickStatus := .ok

end Sys2Proof.Machine
end

