-- ==== Sys2Proof/Machine/Memory.lean ====
section
/-! DEFINITION. The data memory map: segments, cells, one byte, one word (20_memory.md). -/

namespace Sys2Proof.Machine

/-- The rows of the address map (R51). -/
inductive Segment where
  | heap
  | unmapped
  | graphics
  | ioWindow
  deriving DecidableEq, Repr

/-- Segment selection by `sel = a[15:12]`; bits 31 to 16 of the address take no part (R50, R51). -/
def segmentOf (addr : Word) : Segment :=
  match (addr.extractLsb' 12 4).toNat with
  | 0x0 => .heap
  | 0xA => .graphics
  | 0xF => .ioWindow
  | _ => .unmapped

/-- The address of `gfx[0]` in `Memory` (R53: the canonical range is 0xA000 to 0xA3FF). -/
def gfxBase : Nat := 0xA000

/-- The memory cell of byte `k` of the word at `addr`: in the heap at offset `(a + k) & 0x0FFF`, in the graphics region at
`(a + k) & 0x03FF`, so that a word wraps byte by byte inside its region (R52, R53, R57, R60); none where no storage stands
behind the address (R54, R55). -/
def cellOf (addr : Word) (k : Nat) : Option Nat :=
  match segmentOf addr with
  | .heap => some (addr.setWidth 12 + BitVec.ofNat 12 k).toNat
  | .graphics => some (gfxBase + (addr.setWidth 10 + BitVec.ofNat 10 k).toNat)
  | .ioWindow => none
  | .unmapped => none

/-- The cells that exist: `heap[0..4095]` and `gfx[0..1023]` (R20). -/
def cellExists (a : Nat) : Bool :=
  a < Config.heapSize || (gfxBase ≤ a && a < gfxBase + Config.gfxSize)

/-- The byte of one cell. -/
def Memory.read : Memory → Nat → Byte
  | [], _ => unlistedByte
  | (k, b) :: rest, a => if k = a then b else Memory.read rest a

/-- Put a byte at its place in the rising list of addresses. -/
def Memory.insert : Memory → Nat → Byte → Memory
  | [], a, v => [(a, v)]
  | (k, b) :: rest, a, v =>
    if a < k then (a, v) :: (k, b) :: rest
    else if a = k then (a, v) :: rest
    else (k, b) :: Memory.insert rest a v

/-- Write the byte of one cell. Writing what an unlisted cell reads as removes the entry, so equal memories stay equal
data. -/
def Memory.write (m : Memory) (a : Nat) (v : Byte) : Memory :=
  if v = unlistedByte then m.filter (fun c => c.1 != a) else Memory.insert m a v

/-- The addresses rise strictly. -/
def Memory.rising : Memory → Bool
  | [] => true
  | [_] => true
  | (a, _) :: (b, v) :: rest => decide (a < b) && Memory.rising ((b, v) :: rest)

/-- The canonical form: addresses strictly rising, no entry equal to what an unlisted address reads as, and every address
one of a cell that exists. -/
def Memory.wf (m : Memory) : Bool :=
  Memory.rising m && m.all fun c => c.2 != unlistedByte && cellExists c.1

/-- Byte `k` of the word at `addr`: 0 where there is no storage (R54, R55). -/
def readByteAt (m : Memory) (addr : Word) (k : Nat) : Byte :=
  match cellOf addr k with
  | some a => Memory.read m a
  | none => 0

/-- Write byte `k` of the word at `addr`: discarded where there is no storage (R54, R55). -/
def writeByteAt (m : Memory) (addr : Word) (k : Nat) (v : Byte) : Memory :=
  match cellOf addr k with
  | some a => Memory.write m a v
  | none => m

/-- `MemRead(addr, 4)` (R57): four bytes, the byte at the lowest offset in bits 7 to 0. -/
def memRead (m : Memory) (addr : Word) : Word :=
  readByteAt m addr 3 ++ readByteAt m addr 2 ++ readByteAt m addr 1 ++ readByteAt m addr 0

/-- `MemWrite(addr, 4, v)` (R58). -/
def memWrite (m : Memory) (addr : Word) (v : Word) : Memory :=
  writeByteAt (writeByteAt (writeByteAt (writeByteAt m addr 0 (byteOf v 0)) addr 1 (byteOf v 1)) addr 2 (byteOf v 2))
    addr 3 (byteOf v 3)

end Sys2Proof.Machine
end

