-- ==== Sys2Proof/Machine/Ops.lean ====
section
/-! DEFINITION. The micro-operations of the pseudocode (00_scope.md R7): `Push`, `Pop`, the checked indexed accesses, the
memory accesses on a state, `raise`, and the end of a tick. -/

namespace Sys2Proof.Machine

/-- A micro-operation's outcome: it is done with a value, or it raised an error. Either way it leaves a state, because a
raise keeps every effect already made (60_exceptions.md R206). -/
inductive Micro (α : Type) where
  | done (a : α) (s : State)
  | raised (e : TickError) (s : State)
  deriving DecidableEq, Repr

/-- Run the next micro-operation on what the last one left; after a raise nothing more runs (R206). -/
def Micro.bind {α β : Type} (m : Micro α) (f : α → State → Micro β) : Micro β :=
  match m with
  | .done a s => f a s
  | .raised e s => .raised e s

/-- `stack[i]`; 0 outside the array, which no checked access reads. -/
def State.slot (s : State) (i : Nat) : Word := s.stack.val[i]?.getD 0

/-- The array with slot `i` written; unchanged where `i` is outside it, which no checked access writes. -/
def setSlots (a : Slots) (i : Nat) (v : Word) : Slots :=
  ⟨a.val.set i v, by rw [List.length_set]; exact a.property⟩

/-- `stack[i] <- v`. -/
def State.setSlot (s : State) (i : Nat) (v : Word) : State := { s with stack := setSlots s.stack i v }

/-- `Push(v)` (10_state.md R24). -/
def push (v : Word) (s : State) : Micro Unit :=
  if s.sp = 0 then .raised .stackOverflow s
  else .done () (State.setSlot { s with sp := s.sp - 1 } (s.sp - 1).toNat v)

/-- `Pop()` (R25). The slot keeps its pattern (R27). A pattern of the 9-bit register above 256, which no run reaches (R22),
underflows too: log 6. -/
def pop (s : State) : Micro Word :=
  if Config.stackDepth ≤ s.sp.toNat then .raised .stackUnderflow s
  else .done (s.slot s.sp.toNat) { s with sp := s.sp + 1 }

/-- `StackRead(i)` (R26), the index an exact integer. -/
def stackRead (i : Int) (s : State) : Micro Word :=
  if i < 0 then .raised .stackOverflow s
  else if 256 ≤ i then .raised .stackUnderflow s
  else .done (s.slot i.toNat) s

/-- `StackWrite(i, v)` (R26), the index an exact integer. -/
def stackWrite (i : Int) (v : Word) (s : State) : Micro Unit :=
  if i < 0 then .raised .stackOverflow s
  else if 256 ≤ i then .raised .stackUnderflow s
  else .done () (s.setSlot i.toNat v)

/-- `MemWrite` on the state: the memory map changes and nothing else (20_memory.md R58). -/
def storeWord (addr v : Word) (s : State) : Micro Unit :=
  .done () { s with mem := memWrite s.mem addr v }

/-- `IP <- target` (42_control.md R130): the 32-bit pattern, unchecked. -/
def jumpTo (target : Word) (s : State) : Micro Unit :=
  .done () { s with ip := target }

/-- TAKING AN ERROR, the one shared operation (60_exceptions.md R206, R208): nothing is saved, unwound or redirected; the
tick returns the error. There is no return from it: the next tick goes on from this state (R209). -/
def raiseError (e : TickError) (s : State) : State := { s with tickStatus := .error e }

/-- Step T8 of the tick (10_state.md R32): return `Ok`. -/
def returnOk (s : State) : State := { s with tickStatus := .ok }

/-- The end of a tick: `Ok` when every micro-operation was done, else the error raised first (R200, R206, R207). Always a
next state: log 3. -/
def endTick (m : Micro Unit) : Host.Outcome State Fault Refusal :=
  match m with
  | .done _ s => .next (returnOk s)
  | .raised e s => .next (raiseError e s)

end Sys2Proof.Machine
end

