-- ==== Sys2Proof/Machine/Operands.lean ====
section
/-! DEFINITION. How instructions take their operands: all from the stack, in the pop order of the rules (43_alu.md R151,
42_control.md R138), and the two ways an operand is narrowed (R167, 40_stack_ops.md R105). -/

namespace Sys2Proof.Machine

/-- A unary operation (R151): pop `v`, push `f v`. -/
def unaryOp (f : Word → Word) (s : State) : Micro Unit :=
  (pop s).bind fun v s => push (f v) s

/-- Pop `b`, then `a` (R151: the right-hand operand first). -/
def popPair (s : State) : Micro (Word × Word) :=
  (pop s).bind fun b s => (pop s).bind fun a s => .done (a, b) s

/-- A binary operation (R151): pop `b`, pop `a`, push `f a b`. -/
def binaryOp (f : Word → Word → Word) (s : State) : Micro Unit :=
  (popPair s).bind fun p s => push (f p.1 p.2) s

/-- `div` and `mod` (R163, R164): the divisor is looked at after both pops; 0 raises `ArithmeticError`. -/
def divideOp (f : Word → Word → Word) (s : State) : Micro Unit :=
  (popPair s).bind fun p s => if p.2 = 0 then .raised .arithmeticError s else push (f p.1 p.2) s

/-- A jump on one value (R138): pop the target, pop `v`, jump if `cond v`. -/
def jumpIfOne (cond : Word → Bool) (s : State) : Micro Unit :=
  (pop s).bind fun target s => (pop s).bind fun v s => if cond v then jumpTo target s else .done () s

/-- A relational jump (R138): pop the target, pop `v2`, pop `v1`, jump if `cond v1 v2`. -/
def jumpIfTwo (cond : Word → Word → Bool) (s : State) : Micro Unit :=
  (pop s).bind fun target s => (popPair s).bind fun p s => if cond p.1 p.2 then jumpTo target s else .done () s

/-- The index `SP + o`, an exact integer with `o` read as signed (10_state.md R26, 40_stack_ops.md R105). -/
def indexFromSp (s : State) (o : Int) : Int := (s.sp.toNat : Int) + o

/-- `CLONE_OFFSET` (R104): 0, by conflict C2 and decision D19. Log 9. -/
def cloneOffset : Int := 0

/-- The shift count `unsigned(b[4:0])` (R167). -/
def shiftCount (b : Word) : Nat := (b.extractLsb' 0 5).toNat

/-- The value `push8` pushes, `zext_8(b1)` (R82, R102). -/
def zext8 (b : Byte) : Word := b.setWidth 32

/-- The value `push16` pushes, `zext_16` (R82, R103). -/
def zext16 (h : BitVec 16) : Word := h.setWidth 32

end Sys2Proof.Machine
end

