-- ==== Sys2Proof/Machine/Alu.lean ====
section
/-! DEFINITION. Arithmetic and logic (43_alu.md R150 to R168): the value each operation computes, as the rule's own
expression on exact integers narrowed by `wrap32`, and the instruction over it. -/

namespace Sys2Proof.Machine

/-- `wrap32(n)` (00_scope.md R6): the 32-bit pattern congruent to `n` modulo `2^32`. -/
def wrap32 (n : Int) : Word := BitVec.ofInt 32 n

/-- R152. -/
def aluAnd (a b : Word) : Word := a &&& b

/-- R153. -/
def aluOr (a b : Word) : Word := a ||| b

/-- R154. -/
def aluXor (a b : Word) : Word := a ^^^ b

/-- R155. -/
def aluNot (v : Word) : Word := ~~~v

/-- R156. -/
def aluInc (v : Word) : Word := wrap32 (v.toInt + 1)

/-- R157. -/
def aluDec (v : Word) : Word := wrap32 (v.toInt - 1)

/-- R158. -/
def aluAdd (a b : Word) : Word := wrap32 (a.toInt + b.toInt)

/-- R159. -/
def aluSub (a b : Word) : Word := wrap32 (a.toInt - b.toInt)

/-- R160: `unsigned(a) * 2^n`. -/
def aluShl (a b : Word) : Word := wrap32 ((a.toNat : Int) * 2 ^ shiftCount b)

/-- R161: `floor(signed(a) / 2^n)`; `Int.fdiv` rounds toward minus infinity. -/
def aluShr (a b : Word) : Word := wrap32 (Int.fdiv a.toInt (2 ^ shiftCount b))

/-- R162. -/
def aluMul (a b : Word) : Word := wrap32 (a.toInt * b.toInt)

/-- R163, R168, for `b` not 0: `Int.tdiv` truncates toward zero. -/
def aluDiv (a b : Word) : Word := wrap32 (Int.tdiv a.toInt b.toInt)

/-- R164, R168, for `b` not 0: `A - Q * B` with the truncating quotient. -/
def aluMod (a b : Word) : Word := wrap32 (a.toInt - Int.tdiv a.toInt b.toInt * b.toInt)

/-- R165. -/
def aluNeg (v : Word) : Word := wrap32 (-v.toInt)

/-- R166. -/
def aluAbs (v : Word) : Word := if v.toInt < 0 then wrap32 (-v.toInt) else v

/-- `and` (R152). -/
def execAnd (s : State) : Host.Outcome State Fault Refusal := endTick (binaryOp aluAnd s)

/-- `or` (R153). -/
def execOr (s : State) : Host.Outcome State Fault Refusal := endTick (binaryOp aluOr s)

/-- `xor` (R154). -/
def execXor (s : State) : Host.Outcome State Fault Refusal := endTick (binaryOp aluXor s)

/-- `not` (R155). -/
def execNot (s : State) : Host.Outcome State Fault Refusal := endTick (unaryOp aluNot s)

/-- `inc` (R156). -/
def execInc (s : State) : Host.Outcome State Fault Refusal := endTick (unaryOp aluInc s)

/-- `dec` (R157). -/
def execDec (s : State) : Host.Outcome State Fault Refusal := endTick (unaryOp aluDec s)

/-- `add` (R158). -/
def execAdd (s : State) : Host.Outcome State Fault Refusal := endTick (binaryOp aluAdd s)

/-- `sub` (R159). -/
def execSub (s : State) : Host.Outcome State Fault Refusal := endTick (binaryOp aluSub s)

/-- `shl` (R160). -/
def execShl (s : State) : Host.Outcome State Fault Refusal := endTick (binaryOp aluShl s)

/-- `shr` (R161). -/
def execShr (s : State) : Host.Outcome State Fault Refusal := endTick (binaryOp aluShr s)

/-- `mul` (R162). -/
def execMul (s : State) : Host.Outcome State Fault Refusal := endTick (binaryOp aluMul s)

/-- `div` (R163). -/
def execDiv (s : State) : Host.Outcome State Fault Refusal := endTick (divideOp aluDiv s)

/-- `mod` (R164). -/
def execMod (s : State) : Host.Outcome State Fault Refusal := endTick (divideOp aluMod s)

/-- `neg` (R165). -/
def execNeg (s : State) : Host.Outcome State Fault Refusal := endTick (unaryOp aluNeg s)

/-- `abs` (R166). -/
def execAbs (s : State) : Host.Outcome State Fault Refusal := endTick (unaryOp aluAbs s)

end Sys2Proof.Machine
end

