-- ==== Sys2Proof/Machine/Flags.lean ====
section
/-! DEFINITION. The hardware has no flags and no condition codes (10_state.md R36): no instruction computes one. What takes
their place are the conditions the jumps test on popped values (42_control.md R132 to R137, R139). -/

namespace Sys2Proof.Machine

/-- `jz` (R132): all 32 bits are 0. -/
def condZero (v : Word) : Bool := v == 0

/-- `jnz` (R133). -/
def condNotZero (v : Word) : Bool := v != 0

/-- `jg` (R134, R139): signed comparison. -/
def condGreater (v1 v2 : Word) : Bool := decide (v2.toInt < v1.toInt)

/-- `jge` (R135, R139): signed comparison. -/
def condGreaterEq (v1 v2 : Word) : Bool := decide (v2.toInt ≤ v1.toInt)

/-- `je` (R136): all 32 bits equal. -/
def condEq (v1 v2 : Word) : Bool := v1 == v2

/-- `jne` (R137). -/
def condNotEq (v1 v2 : Word) : Bool := v1 != v2

end Sys2Proof.Machine
end

