-- ==== Sys2Proof/Machine/Control.lean ====
section
/-! DEFINITION. The seven jumps (42_control.md R130 to R139). A jump that is not taken keeps the advanced `IP`. -/

namespace Sys2Proof.Machine

/-- `jmp` (R131). -/
def execJmp (s : State) : Host.Outcome State Fault Refusal :=
  endTick ((pop s).bind fun target s => jumpTo target s)

/-- `jz` (R132). -/
def execJz (s : State) : Host.Outcome State Fault Refusal := endTick (jumpIfOne condZero s)

/-- `jnz` (R133). -/
def execJnz (s : State) : Host.Outcome State Fault Refusal := endTick (jumpIfOne condNotZero s)

/-- `jg` (R134). -/
def execJg (s : State) : Host.Outcome State Fault Refusal := endTick (jumpIfTwo condGreater s)

/-- `jge` (R135). -/
def execJge (s : State) : Host.Outcome State Fault Refusal := endTick (jumpIfTwo condGreaterEq s)

/-- `je` (R136). -/
def execJe (s : State) : Host.Outcome State Fault Refusal := endTick (jumpIfTwo condEq s)

/-- `jne` (R137). -/
def execJne (s : State) : Host.Outcome State Fault Refusal := endTick (jumpIfTwo condNotEq s)

end Sys2Proof.Machine
end

