-- ==== Sys2Proof/Machine/LoadStore.lean ====
section
/-! DEFINITION. The two instructions that reach the memory map (41_load_store.md R120, R121). -/

namespace Sys2Proof.Machine

/-- `load` (R120): pop the address, push `MemRead(addr, 4)`. -/
def execLoad (s : State) : Host.Outcome State Fault Refusal :=
  endTick ((pop s).bind fun addr s => push (memRead s.mem addr) s)

/-- `store` (R121): pop the address, then the value; `MemWrite(addr, 4, value)`. -/
def execStore (s : State) : Host.Outcome State Fault Refusal :=
  endTick ((pop s).bind fun addr s => (pop s).bind fun value s => storeWord addr value s)

end Sys2Proof.Machine
end

