-- ==== Sys2Proof/Machine/Misc.lean ====
section
/-! DEFINITION. `debug`, `nop` and the undefined opcodes (44_misc.md R180 to R182): nothing beyond the advance of `IP`,
which the tick has already made. -/

namespace Sys2Proof.Machine

/-- `debug` (R180): architecturally identical to `nop`. The optional trace strobe is an output, not state: log 10. -/
def execDebug (s : State) : Host.Outcome State Fault Refusal := endTick (.done () s)

/-- `nop` (R181). -/
def execNop (s : State) : Host.Outcome State Fault Refusal := endTick (.done () s)

/-- An undefined opcode (R182): a defined one-byte no-op, whatever its value, and not an error. -/
def execUndefinedOpcode (_op : BitVec 8) (s : State) : Host.Outcome State Fault Refusal := endTick (.done () s)

end Sys2Proof.Machine
end

