-- ==== Sys2Proof/Machine/StackOps.lean ====
section
/-! DEFINITION. Literal and stack-manipulation instructions (40_stack_ops.md R100 to R107). `IP` has already been advanced
past the instruction when a meaning runs (10_state.md R32, T6). -/

namespace Sys2Proof.Machine

/-- `push32` (R100). -/
def execPush32 (imm : BitVec 32) (s : State) : Host.Outcome State Fault Refusal :=
  endTick (push imm s)

/-- `pop` (R101): the value is dropped. -/
def execPop (s : State) : Host.Outcome State Fault Refusal :=
  endTick ((pop s).bind fun _ s => .done () s)

/-- `push8` (R102). -/
def execPush8 (imm : BitVec 8) (s : State) : Host.Outcome State Fault Refusal :=
  endTick (push (zext8 imm) s)

/-- `push16` (R103). -/
def execPush16 (imm : BitVec 16) (s : State) : Host.Outcome State Fault Refusal :=
  endTick (push (zext16 imm) s)

/-- `clone` (R104): `SP` as it is before clone's own push. -/
def execClone (s : State) : Host.Outcome State Fault Refusal :=
  endTick ((stackRead (indexFromSp s cloneOffset) s).bind fun v s => push v s)

/-- `loads` (R105): `SP` is the value after the pop and before the push. -/
def execLoads (s : State) : Host.Outcome State Fault Refusal :=
  endTick ((pop s).bind fun o s => (stackRead (indexFromSp s o.toInt) s).bind fun v s => push v s)

/-- `stors` (R106): `SP` is the value after both pops. -/
def execStors (s : State) : Host.Outcome State Fault Refusal :=
  endTick ((pop s).bind fun o s => (pop s).bind fun v s => stackWrite (indexFromSp s o.toInt) v s)

/-- `swap` (R107). -/
def execSwap (s : State) : Host.Outcome State Fault Refusal :=
  endTick ((pop s).bind fun x s => (pop s).bind fun y s => (push x s).bind fun _ s => push y s)

end Sys2Proof.Machine
end

