-- ==== Sys2Proof/Machine/Dispatch.lean ====
section
/-! DEFINITION. Step T7 of the tick (10_state.md R32): one arm per constructor of `Instr`, one meaning per arm. -/

namespace Sys2Proof.Machine

def exec (i : Instr) (s : State) : Host.Outcome State Fault Refusal :=
  match i with
  | .push32 imm => Sys2Proof.Machine.execPush32 imm s
  | .pop => Sys2Proof.Machine.execPop s
  | .load => Sys2Proof.Machine.execLoad s
  | .store => Sys2Proof.Machine.execStore s
  | .push8 imm => Sys2Proof.Machine.execPush8 imm s
  | .push16 imm => Sys2Proof.Machine.execPush16 imm s
  | .clone => Sys2Proof.Machine.execClone s
  | .loads => Sys2Proof.Machine.execLoads s
  | .stors => Sys2Proof.Machine.execStors s
  | .swap => Sys2Proof.Machine.execSwap s
  | .jmp => Sys2Proof.Machine.execJmp s
  | .jz => Sys2Proof.Machine.execJz s
  | .jnz => Sys2Proof.Machine.execJnz s
  | .jg => Sys2Proof.Machine.execJg s
  | .jge => Sys2Proof.Machine.execJge s
  | .je => Sys2Proof.Machine.execJe s
  | .jne => Sys2Proof.Machine.execJne s
  | .and => Sys2Proof.Machine.execAnd s
  | .or => Sys2Proof.Machine.execOr s
  | .xor => Sys2Proof.Machine.execXor s
  | .not => Sys2Proof.Machine.execNot s
  | .inc => Sys2Proof.Machine.execInc s
  | .dec => Sys2Proof.Machine.execDec s
  | .add => Sys2Proof.Machine.execAdd s
  | .sub => Sys2Proof.Machine.execSub s
  | .shl => Sys2Proof.Machine.execShl s
  | .shr => Sys2Proof.Machine.execShr s
  | .mul => Sys2Proof.Machine.execMul s
  | .div => Sys2Proof.Machine.execDiv s
  | .mod => Sys2Proof.Machine.execMod s
  | .neg => Sys2Proof.Machine.execNeg s
  | .abs => Sys2Proof.Machine.execAbs s
  | .debug => Sys2Proof.Machine.execDebug s
  | .nop => Sys2Proof.Machine.execNop s
  | .undefinedOpcode op => Sys2Proof.Machine.execUndefinedOpcode op s

end Sys2Proof.Machine
end

