-- ==== Sys2Proof/Machine/Fetch.lean ====
section
/-! DEFINITION. Steps T1 to T6 of the tick (10_state.md R32, R33): the restart, fetching and decoding the instruction's
bytes, advancing `IP`; and where a program byte is placed for `withFetchWord`. -/

namespace Sys2Proof.Machine

/-- Program byte `i`; none at or past `codeSize` (R31: there `Fetch8` raises `FetchOutOfRange`). -/
def fetch8 (s : State) (i : Nat) : Option Byte := s.program[i]?

/-- Step T1, the restart (R33): when `IP` is at or past `codeSize` (compared unsigned), `IP` becomes 0 and `SP` 256. -/
def restart (s : State) : State :=
  if s.codeSize ≤ s.ip.toNat then { s with ip := 0, sp := 256 } else s

/-- `IP <- IP + n` (R34). -/
def advance (n : Nat) (s : State) : State := { s with ip := s.ip + BitVec.ofNat 32 n }

/-- The program bytes from `IP` on. -/
def bytesAtIp (s : State) : List Byte := s.program.drop s.ip.toNat

/-- Steps T2 to T6 on the state T1 left. No opcode byte: raise, nothing changed (T2). An immediate that runs past the end:
`IP` is advanced past it and the error raised (T4). Else the instruction, with `IP` advanced past it (T5, T6). -/
def fetchDecode (s : State) : Micro Instr :=
  match decode (bytesAtIp s) with
  | .ok i => .done i (advance (instrLength i) s)
  | .error .noOpcode => .raised .fetchOutOfRange s
  | .error (.truncated w) => .raised .fetchOutOfRange (advance (1 + w) s)

/-- Steps T1 to T6. -/
def fetchInstr (s : State) : Micro Instr := fetchDecode (restart s)

/-- `bytes` written over a program from index `i` on (the program grows where it is too short). -/
def placeBytes (program : List Byte) (i : Nat) (bytes : List Byte) : List Byte :=
  program.take i ++ bytes ++ program.drop (i + bytes.length)

end Sys2Proof.Machine
end

