-- ==== Sys2Proof/Machine/Step.lean ====
section
/-! DEFINITION. The tick (10_state.md R32), and placing one instruction where the next tick fetches. -/

namespace Sys2Proof.Machine

/-- `Tick()` (R32): fetch (T1 to T6), then execute (T7, T8); an error raised while fetching ends the tick (R206, R207). -/
def step (s : State) : Host.Outcome State Fault Refusal :=
  match fetchInstr s with
  | .done i s => exec i s
  | .raised e s => .next (raiseError e s)

/-- `s` with the instruction of `w` stored where the next step fetches: over the program bytes at `IP` where `IP` is inside
the program, so that nothing but the program changes; else the step would restart at index 0, so the bytes go there and
`IP` is 0. It stands for the host's Load, the only way program bytes change (R69): log 7. -/
def State.withFetchWord (s : State) (nbits w : Nat) : State :=
  if s.ip.toNat < s.codeSize then { s with program := placeBytes s.program s.ip.toNat (tableBytes nbits w) }
  else { s with program := placeBytes s.program 0 (tableBytes nbits w), ip := 0 }

end Sys2Proof.Machine
end

