-- ==== Sys2Proof/Machine/HostOps.lean ====
section
/-! DEFINITION. The host's operations beside Tick (70_reset_and_hazards.md R230): PowerOn, Load, Clear, Observe. -/

namespace Sys2Proof.Machine

/-- PowerOn (R232). The stack's contents are unspecified there (R35, D7), so they are an argument: whatever the array
happens to hold. `State.reset` is `powerOn` with zeros (log 1). -/
def powerOn (contents : Slots) : State :=
  { State.reset with stack := contents }

/-- Load (R231): the program and its length, `IP` 0, `SP` 256; memory and stack array are kept. A program longer than
`CODE_SIZE_MAX` is refused (D5). -/
def hostLoad (bytes : List Byte) (s : State) : Host.Outcome State Fault Refusal :=
  if bytes.length ≤ Config.codeSizeMax then .next { s with program := bytes, ip := 0, sp := 256 }
  else .refused .programTooLong

/-- Clear (R233): every byte of `heap` and `gfx` becomes 0, nothing else changes. -/
def hostClear (s : State) : State := { s with mem := [] }

/-- Observe byte `off` of `heap` (20_memory.md R68). -/
def observeHeap (s : State) (off : BitVec 12) : Byte := Memory.read s.mem off.toNat

/-- Observe byte `off` of `gfx` (R68). -/
def observeGfx (s : State) (off : BitVec 10) : Byte := Memory.read s.mem (gfxBase + off.toNat)

/-- The host operations that can change the core (R230; Observe changes nothing). -/
inductive HostOp where
  | powerOn (contents : Slots)
  | load (bytes : List Byte)
  | tick
  | clear
  deriving DecidableEq, Repr

/-- One host operation, complete before the next begins (R230, D3). -/
def hostStep (op : HostOp) (s : State) : Host.Outcome State Fault Refusal :=
  match op with
  | .powerOn contents => .next (powerOn contents)
  | .load bytes => hostLoad bytes s
  | .tick => step s
  | .clear => .next (hostClear s)

/-- The host's operations in order; a refused Load ends the run. -/
def hostRun : List HostOp → State → Host.Outcome State Fault Refusal
  | [], s => .next s
  | op :: ops, s =>
    match hostStep op s with
    | .next t => hostRun ops t
    | .fault r => .fault r
    | .refused r => .refused r

/-- The number of each status code (60_exceptions.md R200, D13). -/
def statusCode (st : Status) : Nat :=
  match st with
  | .ok => 0
  | .error .stackOverflow => 1
  | .error .stackUnderflow => 2
  | .error .arithmeticError => 3
  | .error .fetchOutOfRange => 4

end Sys2Proof.Machine
end

