-- ==== Sys2Proof/Safety.lean ====
section
/-! DEFINITION. The terms claims use: the invariant, the end of a pass, and the shapes the instruction rules share. -/

namespace Sys2Proof.Machine

/-- What every state the host can reach satisfies: memory in canonical form, `SP` in `0 .. 256` (10_state.md R22), and a
program of at most `2^31 - 1` bytes (R30, whose `CODE_SIZE_MAX` is at most that). -/
def State.Inv (s : State) : Prop :=
  Memory.wf s.mem = true ∧ s.sp.toNat ≤ Config.stackDepth ∧ s.codeSize ≤ 2 ^ 31 - 1

/-- The end of a pass (70_reset_and_hazards.md R246): the next tick restarts the program. -/
def State.endOfPass (s : State) : Prop := s.codeSize ≤ s.ip.toNat

/-- `stack[SP + k]`: the value pushed `k` pushes before the top (00_scope.md R8). -/
def State.nth (s : State) (k : Nat) : Word := s.slot (s.sp.toNat + k)

/-- Format `OP` (30_encoding.md R80, R81): the one byte `op` is the whole encoding of `i`, whatever byte follows. -/
def HasOpcode (i : Instr) (op : Byte) : Prop :=
  instrLength i = 1 ∧ ∀ rest, decode (op :: rest) = .ok i

/-- What 41_load_store.md R120 and the rules of 43_alu.md say of an operation `i` with opcode `op` on one value, whose
result is `f` of the state: on an empty stack the pop underflows; else the result replaces the top, and every other field
keeps its value. -/
def UnaryRuleAt (i : Instr) (op : Byte) (f : State → Word) : Prop :=
  HasOpcode i op ∧ ∀ s : State,
    (s.sp = 256 → exec i s = .next { s with tickStatus := .error .stackUnderflow }) ∧
    (s.sp.toNat ≤ 255 → exec i s = .next { s with stack := setSlots s.stack s.sp.toNat (f s), tickStatus := .ok })

/-- A unary operation of 43_alu.md that computes `f` of the top. -/
def UnaryRule (i : Instr) (op : Byte) (f : Word → Word) : Prop := UnaryRuleAt i op fun s => f (s.nth 0)

/-- What the rules of 43_alu.md say of a binary operation: with fewer than two values the failing pop ends the tick and
what was popped stays popped; else `a = stack[SP + 1]` and `b = stack[SP]` are replaced by `f a b`. -/
def BinaryRule (i : Instr) (op : Byte) (f : Word → Word → Word) : Prop :=
  HasOpcode i op ∧ ∀ s : State,
    (s.sp = 256 → exec i s = .next { s with tickStatus := .error .stackUnderflow }) ∧
    (s.sp = 255 → exec i s = .next { s with sp := 256, tickStatus := .error .stackUnderflow }) ∧
    (s.sp.toNat ≤ 254 → exec i s = .next
      { s with sp := s.sp + 1, stack := setSlots s.stack (s.sp.toNat + 1) (f (s.nth 1) (s.nth 0)), tickStatus := .ok })

/-- `div` and `mod` (R163, R164): as a binary operation, but a divisor 0 raises `ArithmeticError` after both pops. -/
def DivideRule (i : Instr) (op : Byte) (f : Word → Word → Word) : Prop :=
  HasOpcode i op ∧ ∀ s : State,
    (s.sp = 256 → exec i s = .next { s with tickStatus := .error .stackUnderflow }) ∧
    (s.sp = 255 → exec i s = .next { s with sp := 256, tickStatus := .error .stackUnderflow }) ∧
    (s.sp.toNat ≤ 254 → s.nth 0 = 0 → exec i s = .next
      { s with sp := s.sp + 2, tickStatus := .error .arithmeticError }) ∧
    (s.sp.toNat ≤ 254 → s.nth 0 ≠ 0 → exec i s = .next
      { s with sp := s.sp + 1, stack := setSlots s.stack (s.sp.toNat + 1) (f (s.nth 1) (s.nth 0)), tickStatus := .ok })

/-- A jump on one value (42_control.md R132, R133): `target = stack[SP]`, `v = stack[SP + 1]`, both popped whether or not
the jump is taken; `IP` is the target exactly when `cond v` holds. -/
def JumpOneRule (i : Instr) (op : Byte) (cond : Word → Prop) : Prop :=
  HasOpcode i op ∧ ∀ s : State,
    (s.sp = 256 → exec i s = .next { s with tickStatus := .error .stackUnderflow }) ∧
    (s.sp = 255 → exec i s = .next { s with sp := 256, tickStatus := .error .stackUnderflow }) ∧
    (s.sp.toNat ≤ 254 → cond (s.nth 1) → exec i s = .next
      { s with sp := s.sp + 2, ip := s.nth 0, tickStatus := .ok }) ∧
    (s.sp.toNat ≤ 254 → ¬ cond (s.nth 1) → exec i s = .next { s with sp := s.sp + 2, tickStatus := .ok })

/-- A relational jump (42_control.md R134 to R138): `target = stack[SP]`, `v2 = stack[SP + 1]`, `v1 = stack[SP + 2]`, all
popped whether or not the jump is taken. -/
def JumpTwoRule (i : Instr) (op : Byte) (cond : Word → Word → Prop) : Prop :=
  HasOpcode i op ∧ ∀ s : State,
    (s.sp = 256 → exec i s = .next { s with tickStatus := .error .stackUnderflow }) ∧
    (s.sp = 255 ∨ s.sp = 254 → exec i s = .next { s with sp := 256, tickStatus := .error .stackUnderflow }) ∧
    (s.sp.toNat ≤ 253 → cond (s.nth 2) (s.nth 1) → exec i s = .next
      { s with sp := s.sp + 3, ip := s.nth 0, tickStatus := .ok }) ∧
    (s.sp.toNat ≤ 253 → ¬ cond (s.nth 2) (s.nth 1) → exec i s = .next { s with sp := s.sp + 3, tickStatus := .ok })

/-- A literal push (40_stack_ops.md R100, R102, R103) of the value `v`: a full stack overflows and nothing is pushed. -/
def PushRule (i : Instr) (v : Word) : Prop :=
  ∀ s : State,
    (s.sp = 0 → exec i s = .next { s with tickStatus := .error .stackOverflow }) ∧
    (1 ≤ s.sp.toNat → s.sp.toNat ≤ 256 → exec i s = .next
      { s with sp := s.sp - 1, stack := setSlots s.stack (s.sp.toNat - 1) v, tickStatus := .ok })

/-- An opcode `op` with an immediate of `w` bytes (R32 steps T4 to T6). Complete: the tick executes the decoded instruction
with `IP` advanced by exactly `1 + w`. Cut off by the end of the program: the bytes do not decode, and the tick reports
`FetchOutOfRange`, `IP` advanced as well, nothing pushed. -/
def ImmediateRule (op : Byte) (w : Nat) : Prop :=
  (∀ s : State, fetch8 s s.ip.toNat = some op → s.ip.toNat + 1 + w ≤ s.codeSize →
    ∃ i, decode (s.program.drop s.ip.toNat) = .ok i ∧ step s = exec i { s with ip := s.ip + BitVec.ofNat 32 (1 + w) }) ∧
  (∀ rest : List Byte, rest.length < w → decode (op :: rest) = .error (.truncated w)) ∧
  ∀ s : State, fetch8 s s.ip.toNat = some op → s.codeSize < s.ip.toNat + 1 + w →
    step s = .next { s with ip := s.ip + BitVec.ofNat 32 (1 + w), tickStatus := .error .fetchOutOfRange }

/-- How many values the stack must hold for `i` not to underflow in a `Pop` or in the read of `clone` (R202). -/
def valuesNeeded (i : Instr) : Nat :=
  match i with
  | .push32 _ | .push8 _ | .push16 _ | .debug | .nop | .undefinedOpcode _ => 0
  | .pop | .clone | .loads | .load | .jmp | .not | .inc | .dec | .neg | .abs => 1
  | .stors | .swap | .store | .jz | .jnz | .and | .or | .xor | .add | .sub | .shl | .shr | .mul | .div | .mod => 2
  | .jg | .jge | .je | .jne => 3

/-- The seven jumps. -/
def isJump (i : Instr) : Bool := i ∈ [.jmp, .jz, .jnz, .jg, .jge, .je, .jne]

end Sys2Proof.Machine
end

