-- ==== Sys2Proof/Certificates/Slice0/Obligations.lean ====
section
/-! DEFINITION. The statements for the provers, from the numbered rules of spec/. `next` equations name the whole state, so
each is also the instruction's frame: every field not named keeps its value. -/

open Sys2Proof Sys2Proof.Machine

/-! ### Decode and encode -/

/-- R80 to R84: every well-formed instruction decodes from its encoding, whatever bytes follow, and its length is that of
the encoding. -/
def Obligations.DecodeOfEncodeIsTheInstruction : Prop :=
  ∀ (i : Instr) (rest : List Byte), i.wf = true →
    decode (encode i ++ rest) = .ok i ∧ (encode i).length = instrLength i

/-- R82 to R85: what decodes is well formed, and the bytes it was decoded from are its encoding: no two byte sequences of
one length stand for one instruction. -/
def Obligations.DecodedBytesAreTheEncoding : Prop :=
  ∀ (bytes : List Byte) (i : Instr), decode bytes = .ok i →
    i.wf = true ∧ bytes.take (instrLength i) = encode i

/-- R85: "The only decode failure is running out of program bytes", with R81's immediate widths. -/
def Obligations.DecodeFailsOnlyWhenBytesRunOut : Prop :=
  ∀ bytes : List Byte,
    (decode bytes = .error .noOpcode ↔ bytes = []) ∧
    ∀ w : Nat, decode bytes = .error (.truncated w) ↔
      ∃ op rest, bytes = op :: rest ∧ rest.length < w ∧
        (op = 0x00 ∧ w = 4 ∨ op = 0x04 ∧ w = 1 ∨ op = 0x05 ∧ w = 2)

/-- A few encodings written out from the spec (95_test_vectors.md S1, S7, K1, K3, X1; R83). -/
def Obligations.WrittenOutWordsDecode : Prop :=
  decode [0x00, 0xFE, 0xFF, 0xFF, 0xFF] = .ok (.push32 0xFFFFFFFE) ∧
  decode [0x00, 0x78, 0x56, 0x34, 0x12] = .ok (.push32 0x12345678) ∧
  decode [0x04, 0xFF] = .ok (.push8 0xFF) ∧
  decode [0x05, 0x00, 0xA0] = .ok (.push16 0xA000) ∧
  decode [0x03, 0xFF] = .ok .store ∧
  decode [0x13] = .ok .jg ∧
  decode [0x2B] = .ok .div ∧
  decode [0xFE, 0x04, 0x01] = .ok .debug ∧
  decode [0xC8, 0xFF] = .ok (.undefinedOpcode 0xC8)

/-! ### The tick -/

/-- R32: where the bytes at `IP` decode to an instruction, the tick advances `IP` past it and executes it. -/
def Obligations.StepRunsTheDecodedInstruction : Prop :=
  ∀ (s : State) (i : Instr), s.ip.toNat < s.codeSize → decode (s.program.drop s.ip.toNat) = .ok i →
    i.wf = true ∧ step s = exec i { s with ip := s.ip + BitVec.ofNat 32 (instrLength i) }

/-- R33: a tick that begins with `IP` at or past `codeSize` is the tick of the state with `IP` 0 and `SP` 256.
That the restart and the instruction share the tick is the spec's decision D20 (log 9). -/
def Obligations.RestartIsPartOfTheSameTick : Prop :=
  ∀ s : State, s.codeSize ≤ s.ip.toNat → step s = step { s with ip := 0, sp := 256 }

/-- R204: both cases of `FetchOutOfRange`, what each leaves, and that after the second the next tick restarts.
The error and what it leaves are the spec's decision D10 (log 9). -/
def Obligations.FetchPastTheEndIsReported : Prop :=
  ∀ s : State,
    (s.codeSize = 0 → step s = .next { s with ip := 0, sp := 256, tickStatus := .error .fetchOutOfRange }) ∧
    ∀ (op : Byte) (w : Nat), (op = 0x00 ∧ w = 4 ∨ op = 0x04 ∧ w = 1 ∨ op = 0x05 ∧ w = 2) →
      s.codeSize ≤ 2 ^ 31 - 1 → fetch8 s s.ip.toNat = some op → s.codeSize < s.ip.toNat + 1 + w →
      ∃ t, step s = .next t ∧
        t = { s with ip := s.ip + 1 + BitVec.ofNat 32 w, tickStatus := .error .fetchOutOfRange } ∧
        t.codeSize < t.ip.toNat ∧ step t = step { t with ip := 0, sp := 256 }

/-- R34: an instruction that is no jump leaves `IP` advanced by its length, and `IP` at most `codeSize` (R29). -/
def Obligations.NonJumpsAdvanceByTheirLength : Prop :=
  ∀ (s t : State) (i : Instr), s.codeSize ≤ 2 ^ 31 - 1 → s.ip.toNat < s.codeSize →
    decode (s.program.drop s.ip.toNat) = .ok i → isJump i = false → step s = .next t →
    t.ip.toNat = s.ip.toNat + instrLength i ∧ t.ip.toNat ≤ t.codeSize

/-- R200: a tick always returns a status and leaves a state: no state, no program and no operand stops the machine.
That an error is a next state is deduced: log 3. -/
def Obligations.EveryTickLeavesAState : Prop :=
  (∀ s : State, ∃ t, step s = .next t) ∧ ∀ (i : Instr) (s : State), ∃ t, exec i s = .next t

/-- R209: "Each tick's status is independent of earlier ones": the tick is the same whatever the last status was.
That the state records it at all is the model's choice: log 2. -/
def Obligations.TickForgetsEarlierStatus : Prop :=
  ∀ (s : State) (st : Status), step { s with tickStatus := st } = step s

/-! ### Micro-operations on the stack -/

/-- R24. -/
def Obligations.PushWritesBelowTheTop : Prop :=
  ∀ (s : State) (v : Word),
    (s.sp = 0 → push v s = .raised .stackOverflow s) ∧
    (1 ≤ s.sp.toNat → s.sp.toNat ≤ 256 → ∃ t, push v s = .done () t ∧
      t.sp.toNat = s.sp.toNat - 1 ∧ t.slot t.sp.toNat = v ∧ (∀ j, j ≠ t.sp.toNat → t.slot j = s.slot j) ∧
      t.ip = s.ip ∧ t.mem = s.mem ∧ t.program = s.program)

/-- R25 and R27: `Pop` returns the top and does not erase it. -/
def Obligations.PopReturnsTheTopAndKeepsTheSlot : Prop :=
  ∀ s : State,
    (s.sp = 256 → pop s = .raised .stackUnderflow s) ∧
    (s.sp.toNat ≤ 255 → ∃ t, pop s = .done (s.slot s.sp.toNat) t ∧ t.sp.toNat = s.sp.toNat + 1 ∧
      (∀ j, t.slot j = s.slot j) ∧ t.stack = s.stack ∧ t.ip = s.ip ∧ t.mem = s.mem ∧ t.program = s.program)

/-- R26: the checked indexed accesses, and what a write leaves in every slot. Which error stands for
which side is the spec's decision D15 (log 9). -/
def Obligations.IndexedAccessIsChecked : Prop :=
  ∀ (s : State) (i : Int) (v : Word),
    (i < 0 → stackRead i s = .raised .stackOverflow s ∧ stackWrite i v s = .raised .stackOverflow s) ∧
    (256 ≤ i → stackRead i s = .raised .stackUnderflow s ∧ stackWrite i v s = .raised .stackUnderflow s) ∧
    (0 ≤ i → i ≤ 255 → stackRead i s = .done (s.slot i.toNat) s ∧
      ∃ t, stackWrite i v s = .done () t ∧ (∀ j : Nat, t.slot j = if (j : Int) = i then v else s.slot j) ∧
        t.ip = s.ip ∧ t.sp = s.sp ∧ t.mem = s.mem ∧ t.program = s.program)

/-! ### Literals and stack manipulation -/

/-- R100, R32, R204: encoding, length, result, overflow, and a cut-off immediate. That the tick then
reports `FetchOutOfRange`, and the `IP` it leaves, are R32 step T4 and R204, the spec's decision D10 (log 9). -/
def Obligations.Push32PushesItsImmediate : Prop :=
  (∀ (b1 b2 b3 b4 : Byte) (rest : List Byte),
    decode (0x00 :: b1 :: b2 :: b3 :: b4 :: rest) = .ok (.push32 (b4 ++ b3 ++ b2 ++ b1))) ∧
  ImmediateRule 0x00 4 ∧ ∀ imm : BitVec 32, instrLength (.push32 imm) = 5 ∧ PushRule (.push32 imm) imm

/-- R102, R32, R204: the immediate is zero-extended; overflow, and a cut-off immediate. That the tick then
reports `FetchOutOfRange`, and the `IP` it leaves, are R32 step T4 and R204, the spec's decision D10 (log 9). -/
def Obligations.Push8PushesItsImmediateZeroExtended : Prop :=
  (∀ (b1 : Byte) (rest : List Byte), decode (0x04 :: b1 :: rest) = .ok (.push8 b1)) ∧
  ImmediateRule 0x04 1 ∧
  ∀ imm : BitVec 8, instrLength (.push8 imm) = 2 ∧ PushRule (.push8 imm) (BitVec.ofNat 32 imm.toNat)

/-- R103, R32, R204: the immediate is little-endian and zero-extended; overflow, and a cut-off immediate. That the tick then
reports `FetchOutOfRange`, and the `IP` it leaves, are R32 step T4 and R204, the spec's decision D10 (log 9). -/
def Obligations.Push16PushesItsImmediateZeroExtended : Prop :=
  (∀ (b1 b2 : Byte) (rest : List Byte), decode (0x05 :: b1 :: b2 :: rest) = .ok (.push16 (b2 ++ b1))) ∧
  ImmediateRule 0x05 2 ∧
  ∀ imm : BitVec 16, instrLength (.push16 imm) = 3 ∧ PushRule (.push16 imm) (BitVec.ofNat 32 imm.toNat)

/-- R101. -/
def Obligations.PopDiscardsTheTop : Prop :=
  HasOpcode .pop 0x01 ∧ ∀ s : State,
    (s.sp = 256 → exec .pop s = .next { s with tickStatus := .error .stackUnderflow }) ∧
    (s.sp.toNat ≤ 255 → exec .pop s = .next { s with sp := s.sp + 1, tickStatus := .ok })

/-- R104, with the spec's `CLONE_OFFSET = 0` (conflict C2, decision D19): log 9. -/
def Obligations.CloneDuplicatesTheTop : Prop :=
  HasOpcode .clone 0x06 ∧ ∀ s : State,
    (s.sp = 256 → exec .clone s = .next { s with tickStatus := .error .stackUnderflow }) ∧
    (s.sp = 0 → exec .clone s = .next { s with tickStatus := .error .stackOverflow }) ∧
    (1 ≤ s.sp.toNat → s.sp.toNat ≤ 255 → exec .clone s = .next
      { s with sp := s.sp - 1, stack := setSlots s.stack (s.sp.toNat - 1) (s.nth 0), tickStatus := .ok })

/-- R105: the offset is popped, `stack[SP + o]` with `SP` after the pop replaces it; an index outside `0 .. 255` raises and
the offset stays popped. -/
def Obligations.LoadsReadsTheSlotAtItsOffset : Prop :=
  HasOpcode .loads 0x07 ∧ ∀ s : State,
    (s.sp = 256 → exec .loads s = .next { s with tickStatus := .error .stackUnderflow }) ∧
    (s.sp.toNat ≤ 255 → (s.sp.toNat : Int) + 1 + (s.nth 0).toInt < 0 →
      exec .loads s = .next { s with sp := s.sp + 1, tickStatus := .error .stackOverflow }) ∧
    (s.sp.toNat ≤ 255 → 256 ≤ (s.sp.toNat : Int) + 1 + (s.nth 0).toInt →
      exec .loads s = .next { s with sp := s.sp + 1, tickStatus := .error .stackUnderflow }) ∧
    (s.sp.toNat ≤ 255 → ∀ k : Nat, (k : Int) = (s.sp.toNat : Int) + 1 + (s.nth 0).toInt → k ≤ 255 →
      exec .loads s = .next { s with stack := setSlots s.stack s.sp.toNat (s.slot k), tickStatus := .ok })

/-- R106: offset and value are popped, then `stack[SP + o]` is written with `SP` after both pops. -/
def Obligations.StorsWritesTheSlotAtItsOffset : Prop :=
  HasOpcode .stors 0x08 ∧ ∀ s : State,
    (s.sp = 256 → exec .stors s = .next { s with tickStatus := .error .stackUnderflow }) ∧
    (s.sp = 255 → exec .stors s = .next { s with sp := 256, tickStatus := .error .stackUnderflow }) ∧
    (s.sp.toNat ≤ 254 → (s.sp.toNat : Int) + 2 + (s.nth 0).toInt < 0 →
      exec .stors s = .next { s with sp := s.sp + 2, tickStatus := .error .stackOverflow }) ∧
    (s.sp.toNat ≤ 254 → 256 ≤ (s.sp.toNat : Int) + 2 + (s.nth 0).toInt →
      exec .stors s = .next { s with sp := s.sp + 2, tickStatus := .error .stackUnderflow }) ∧
    (s.sp.toNat ≤ 254 → ∀ k : Nat, (k : Int) = (s.sp.toNat : Int) + 2 + (s.nth 0).toInt → k ≤ 255 →
      exec .stors s = .next
        { s with sp := s.sp + 2, stack := setSlots s.stack k (s.nth 1), tickStatus := .ok })

/-- R107. -/
def Obligations.SwapExchangesTheTopTwo : Prop :=
  HasOpcode .swap 0x09 ∧ ∀ s : State,
    (s.sp = 256 → exec .swap s = .next { s with tickStatus := .error .stackUnderflow }) ∧
    (s.sp = 255 → exec .swap s = .next { s with sp := 256, tickStatus := .error .stackUnderflow }) ∧
    (s.sp.toNat ≤ 254 → ∃ t, exec .swap s = .next t ∧
      t = { s with stack := setSlots (setSlots s.stack (s.sp.toNat + 1) (s.nth 0)) s.sp.toNat (s.nth 1),
                   tickStatus := .ok } ∧
      t.nth 0 = s.nth 1 ∧ t.nth 1 = s.nth 0 ∧
      ∀ j, j ≠ s.sp.toNat → j ≠ s.sp.toNat + 1 → t.slot j = s.slot j)

/-! ### Memory -/

/-- R57, segment by segment, in terms of the bytes the host observes; `off + k` wraps in the region (R60). -/
def Obligations.MemReadGathersFourBytes : Prop :=
  ∀ (s : State) (addr : Word),
    (addr.extractLsb' 12 4 = 0x0 → ∀ off : BitVec 12, off = addr.setWidth 12 → memRead s.mem addr =
      observeHeap s (off + 3) ++ observeHeap s (off + 2) ++ observeHeap s (off + 1) ++ observeHeap s off) ∧
    (addr.extractLsb' 12 4 = 0xA → ∀ off : BitVec 10, off = addr.setWidth 10 → memRead s.mem addr =
      observeGfx s (off + 3) ++ observeGfx s (off + 2) ++ observeGfx s (off + 1) ++ observeGfx s off) ∧
    (addr.extractLsb' 12 4 ≠ 0x0 → addr.extractLsb' 12 4 ≠ 0xA → memRead s.mem addr = 0)

/-- R58, segment by segment: which bytes are written with what, and that every other byte of both regions is kept. -/
def Obligations.MemWriteSpreadsFourBytes : Prop :=
  ∀ (s t : State) (addr v : Word), t = { s with mem := memWrite s.mem addr v } →
    (addr.extractLsb' 12 4 = 0x0 → ∀ off : BitVec 12, off = addr.setWidth 12 →
      (∀ o : BitVec 12, observeHeap t o =
        if o = off then v.extractLsb' 0 8 else if o = off + 1 then v.extractLsb' 8 8
        else if o = off + 2 then v.extractLsb' 16 8 else if o = off + 3 then v.extractLsb' 24 8
        else observeHeap s o) ∧
      ∀ o : BitVec 10, observeGfx t o = observeGfx s o) ∧
    (addr.extractLsb' 12 4 = 0xA → ∀ off : BitVec 10, off = addr.setWidth 10 →
      (∀ o : BitVec 10, observeGfx t o =
        if o = off then v.extractLsb' 0 8 else if o = off + 1 then v.extractLsb' 8 8
        else if o = off + 2 then v.extractLsb' 16 8 else if o = off + 3 then v.extractLsb' 24 8
        else observeGfx s o) ∧
      ∀ o : BitVec 12, observeHeap t o = observeHeap s o) ∧
    (addr.extractLsb' 12 4 ≠ 0x0 → addr.extractLsb' 12 4 ≠ 0xA → t = s)

/-- R65: a word stored in heap or graphics loads back, also across the end of the region (R60, the
spec's decision D12, log 9); elsewhere a load gives 0. -/
def Obligations.StoredWordLoadsBack : Prop :=
  ∀ (m : Memory) (addr v : Word),
    (addr.extractLsb' 12 4 = 0x0 ∨ addr.extractLsb' 12 4 = 0xA → memRead (memWrite m addr v) addr = v) ∧
    (addr.extractLsb' 12 4 ≠ 0x0 → addr.extractLsb' 12 4 ≠ 0xA → memRead (memWrite m addr v) addr = 0)

/-- R50 and R53: bits 31 to 16 of an address are ignored everywhere, bits 11 and 10 in the graphics segment. The
first is the spec's decision D11 (log 9). -/
def Obligations.IgnoredAddressBitsDoNotMatter : Prop :=
  ∀ (m : Memory) (addr addr' v : Word),
    addr.extractLsb' 0 16 = addr'.extractLsb' 0 16 ∨
      (addr.extractLsb' 12 4 = 0xA ∧ addr'.extractLsb' 12 4 = 0xA ∧ addr.extractLsb' 0 10 = addr'.extractLsb' 0 10) →
    memRead m addr = memRead m addr' ∧ memWrite m addr v = memWrite m addr' v

/-- R120. -/
def Obligations.LoadPushesTheWordAtTheAddress : Prop :=
  UnaryRuleAt .load 0x02 fun s => memRead s.mem (s.nth 0)

/-- R121: result, underflows, the bytes stored, and every cell outside them kept. The cells stored to are those of bytes 0
to 3 at the popped address, none in the I/O window or an unmapped segment. -/
def Obligations.StoreWritesTheWordAtTheAddress : Prop :=
  HasOpcode .store 0x03 ∧ ∀ s : State,
    (s.sp = 256 → exec .store s = .next { s with tickStatus := .error .stackUnderflow }) ∧
    (s.sp = 255 → exec .store s = .next { s with sp := 256, tickStatus := .error .stackUnderflow }) ∧
    (s.sp.toNat ≤ 254 → ∃ t, exec .store s = .next t ∧
      t = { s with sp := s.sp + 2, mem := memWrite s.mem (s.nth 0) (s.nth 1), tickStatus := .ok } ∧
      (∀ k a, k < 4 → cellOf (s.nth 0) k = some a → Memory.read t.mem a = (s.nth 1).extractLsb' (8 * k) 8) ∧
      ∀ a, (∀ k < 4, cellOf (s.nth 0) k ≠ some a) → Memory.read t.mem a = Memory.read s.mem a)

/-- R54 and R55: in the I/O window and the unmapped segments a load gives 0 whatever was stored, a store changes no memory,
and neither is an error. -/
def Obligations.UnmappedAccessesAreHarmless : Prop :=
  ∀ s : State, (s.nth 0).extractLsb' 12 4 ≠ 0x0 → (s.nth 0).extractLsb' 12 4 ≠ 0xA →
    (s.sp.toNat ≤ 255 → exec .load s = .next
      { s with stack := setSlots s.stack s.sp.toNat 0, tickStatus := .ok }) ∧
    (s.sp.toNat ≤ 254 → exec .store s = .next { s with sp := s.sp + 2, tickStatus := .ok })

/-! ### Control transfer -/

/-- R131. -/
def Obligations.JmpGoesToTheTarget : Prop :=
  HasOpcode .jmp 0x10 ∧ ∀ s : State,
    (s.sp = 256 → exec .jmp s = .next { s with tickStatus := .error .stackUnderflow }) ∧
    (s.sp.toNat ≤ 255 → exec .jmp s = .next { s with sp := s.sp + 1, ip := s.nth 0, tickStatus := .ok })

/-- R132, R133. -/
def Obligations.ZeroTestJumps : Prop :=
  JumpOneRule .jz 0x11 (fun v => v = 0x00000000) ∧ JumpOneRule .jnz 0x12 (fun v => v ≠ 0x00000000)

/-- R134, R135: signed comparison (R139). -/
def Obligations.OrderedJumpsCompareSigned : Prop :=
  JumpTwoRule .jg 0x13 (fun v1 v2 => v1.toInt > v2.toInt) ∧ JumpTwoRule .jge 0x14 (fun v1 v2 => v1.toInt ≥ v2.toInt)

/-- R136, R137. -/
def Obligations.EqualityJumpsCompareAllBits : Prop :=
  JumpTwoRule .je 0x15 (fun v1 v2 => v1 = v2) ∧ JumpTwoRule .jne 0x16 (fun v1 v2 => v1 ≠ v2)

/-- R130: a jump to a target at or past `codeSize` is legal, and the tick after it restarts the program at index 0 with an
empty stack; every negative target is one (`codeSize <= 2^31 - 1`). The copy of the pattern is the spec's decision D4
(log 9). -/
def Obligations.JumpPastTheEndRestarts : Prop :=
  ∀ s : State, s.sp.toNat ≤ 255 → s.codeSize ≤ (s.nth 0).toNat ∨ (s.codeSize ≤ 2 ^ 31 - 1 ∧ (s.nth 0).toInt < 0) →
    ∃ t, exec .jmp s = .next t ∧ t.tickStatus = .ok ∧ t.ip = s.nth 0 ∧ t.endOfPass ∧
      step t = step { t with ip := 0, sp := 256 }

/-! ### Arithmetic and logic -/

/-- R152, R153, R154. -/
def Obligations.BitwiseBinaryResults : Prop :=
  BinaryRule .and 0x20 (fun a b => a &&& b) ∧ BinaryRule .or 0x21 (fun a b => a ||| b) ∧
  BinaryRule .xor 0x22 (fun a b => a ^^^ b)

/-- R155: every bit inverted, which is `wrap32(-signed(v) - 1)`. -/
def Obligations.NotInvertsEveryBit : Prop :=
  UnaryRule .not 0x23 (fun v => BitVec.ofInt 32 (-v.toInt - 1)) ∧
  ∀ (v : Word) (i : Nat), i < 32 → (BitVec.ofInt 32 (-v.toInt - 1)).getLsbD i = !v.getLsbD i

/-- R156, R157. -/
def Obligations.IncAndDecWrap : Prop :=
  UnaryRule .inc 0x24 (fun v => BitVec.ofInt 32 (v.toInt + 1)) ∧
  UnaryRule .dec 0x25 (fun v => BitVec.ofInt 32 (v.toInt - 1))

/-- R158, R159. -/
def Obligations.AddAndSubWrap : Prop :=
  BinaryRule .add 0x26 (fun a b => BitVec.ofInt 32 (a.toInt + b.toInt)) ∧
  BinaryRule .sub 0x27 (fun a b => BitVec.ofInt 32 (a.toInt - b.toInt))

/-- R160, R161, R167: the count is the low five bits of `b`; `shl` multiplies, `shr` divides rounding down. -/
def Obligations.ShiftsUseTheLowFiveCountBits : Prop :=
  BinaryRule .shl 0x28 (fun a b => BitVec.ofInt 32 ((a.toNat : Int) * 2 ^ (b.toNat % 32))) ∧
  BinaryRule .shr 0x29 (fun a b => BitVec.ofInt 32 ⌊(a.toInt : ℚ) / 2 ^ (b.toNat % 32)⌋)

/-- R162. -/
def Obligations.MulKeepsTheLowWord : Prop :=
  BinaryRule .mul 0x2A (fun a b => BitVec.ofInt 32 (a.toInt * b.toInt))

/-- R163. -/
def Obligations.DivTruncates : Prop :=
  DivideRule .div 0x2B (fun a b => BitVec.ofInt 32 (Int.tdiv a.toInt b.toInt))

/-- R164. -/
def Obligations.ModIsTheTruncatingRemainder : Prop :=
  DivideRule .mod 0x2C (fun a b => BitVec.ofInt 32 (a.toInt - Int.tdiv a.toInt b.toInt * b.toInt))

/-- R165. -/
def Obligations.NegWraps : Prop :=
  UnaryRule .neg 0x2D (fun v => BitVec.ofInt 32 (-v.toInt))

/-- R166. -/
def Obligations.AbsWraps : Prop :=
  UnaryRule .abs 0x2E (fun v => if v.toInt < 0 then BitVec.ofInt 32 (-v.toInt) else v)

/-- R168: `A = Q * B + R`, `R` zero or with the sign of `A`, `|R| < |B|`, `Q` truncated, except for the one overflow case,
whose quotient is `0x80000000` and remainder 0 by the spec's decision D18 (log 9). -/
def Obligations.QuotientAndRemainderFitTogether : Prop :=
  ∀ a b : Word, b ≠ 0 →
    (a = 0x80000000 ∧ b = 0xFFFFFFFF → aluDiv a b = 0x80000000 ∧ aluMod a b = 0) ∧
    (¬ (a = 0x80000000 ∧ b = 0xFFFFFFFF) →
      a.toInt = (aluDiv a b).toInt * b.toInt + (aluMod a b).toInt ∧
      (aluMod a b).toInt.natAbs < b.toInt.natAbs ∧
      (0 ≤ a.toInt → 0 ≤ (aluMod a b).toInt) ∧ (a.toInt ≤ 0 → (aluMod a b).toInt ≤ 0))

/-- R150: the exact-integer rules of the model are the two's-complement operations of a 32-bit datapath (the
wrap and the shift count by the spec's decisions D16 and D17, log 9). -/
def Obligations.ArithmeticIsTwosComplement : Prop :=
  ∀ a b : Word,
    aluAdd a b = a + b ∧ aluSub a b = a - b ∧ aluMul a b = a * b ∧ aluInc a = a + 1 ∧ aluDec a = a - 1 ∧
    aluNeg a = -a ∧ aluShl a b = a <<< (b.toNat % 32) ∧ aluShr a b = a.sshiftRight (b.toNat % 32) ∧
    (b ≠ 0 → aluDiv a b = a.sdiv b ∧ aluMod a b = a.srem b) ∧ aluAbs a = if a.msb then -a else a

/-! ### debug, nop, undefined opcodes -/

/-- R180, R181, R182 and R84: `debug`, `nop` and each of the 222 undefined opcodes change nothing and return `Ok`; the tick
on such a byte "consumes exactly one byte". That `debug` has no effect at all rests on the spec's decision
D21 (R180); that its optional trace strobe is left out is log 10. -/
def Obligations.NoOpsChangeNothing : Prop :=
  HasOpcode .debug 0xFE ∧ HasOpcode .nop 0xFF ∧
  (∀ op : Byte, (10 ≤ op.toNat ∧ op.toNat ≤ 15 ∨ 23 ≤ op.toNat ∧ op.toNat ≤ 31 ∨ 47 ≤ op.toNat ∧ op.toNat ≤ 253) →
    HasOpcode (.undefinedOpcode op) op) ∧
  (∀ (s : State) (op : Byte),
    exec .debug s = .next { s with tickStatus := .ok } ∧ exec .nop s = .next { s with tickStatus := .ok } ∧
    exec (.undefinedOpcode op) s = .next { s with tickStatus := .ok }) ∧
  ∀ (s : State) (op : Byte), fetch8 s s.ip.toNat = some op →
    (10 ≤ op.toNat ∧ op.toNat ≤ 15 ∨ 23 ≤ op.toNat ∧ op.toNat ≤ 31 ∨ 47 ≤ op.toNat) →
    step s = .next { s with ip := s.ip + 1, tickStatus := .ok }

/-! ### Which instructions can report which error -/

/-- R201: exactly when which instruction raises `StackOverflow`: the pushing ones on a full stack, `loads` and `stors` by a
negative index only. -/
def Obligations.OverflowComesFromPushesAndIndexes : Prop :=
  ∀ (i : Instr) (s : State),
    (∃ t, exec i s = .next t ∧ t.tickStatus = .error .stackOverflow) ↔
      ((∃ imm, i = .push32 imm) ∨ (∃ imm, i = .push8 imm) ∨ (∃ imm, i = .push16 imm) ∨ i = .clone) ∧ s.sp = 0 ∨
      i = .loads ∧ s.sp.toNat ≤ 255 ∧ (s.sp.toNat : Int) + 1 + (s.nth 0).toInt < 0 ∨
      i = .stors ∧ s.sp.toNat ≤ 254 ∧ (s.sp.toNat : Int) + 2 + (s.nth 0).toInt < 0

/-- R202: exactly when which instruction raises `StackUnderflow`: where it needs more values than are live, and `loads` and
`stors` by an index of 256 or more. -/
def Obligations.UnderflowComesFromPopsAndIndexes : Prop :=
  ∀ (i : Instr) (s : State), s.sp.toNat ≤ 256 →
    ((∃ t, exec i s = .next t ∧ t.tickStatus = .error .stackUnderflow) ↔
      256 < s.sp.toNat + valuesNeeded i ∨
      i = .loads ∧ 256 ≤ (s.sp.toNat : Int) + 1 + (s.nth 0).toInt ∨
      i = .stors ∧ 256 ≤ (s.sp.toNat : Int) + 2 + (s.nth 0).toInt)

/-- R203: `ArithmeticError` is raised exactly by `div` and `mod`, exactly when both pops succeed and the divisor is 0; both
operands stay popped. -/
def Obligations.ArithmeticErrorIsDivisionByZero : Prop :=
  ∀ (i : Instr) (s : State),
    ((∃ t, exec i s = .next t ∧ t.tickStatus = .error .arithmeticError) ↔
      (i = .div ∨ i = .mod) ∧ s.sp.toNat ≤ 254 ∧ s.nth 0 = 0x00000000) ∧
    ∀ t, exec i s = .next t → t.tickStatus = .error .arithmeticError →
      t = { s with sp := s.sp + 2, tickStatus := .error .arithmeticError }

/-! ### Host operations, reset, invariants -/

/-- R232: PowerOn, whatever the stack array happens to hold; the reset state is one such state. The zero
bytes are the spec's decision D8; that the reset state's slots are 0 is the model's choice (log 1) and not stated. -/
def Obligations.PowerOnValues : Prop :=
  (∀ contents : Slots,
    (powerOn contents).ip = 0 ∧ (powerOn contents).sp = 256 ∧
    (∀ off, observeHeap (powerOn contents) off = 0) ∧ (∀ off, observeGfx (powerOn contents) off = 0) ∧
    (powerOn contents).codeSize = 0 ∧ (powerOn contents).program = [] ∧ (powerOn contents).stack = contents) ∧
  ∃ contents, State.reset = powerOn contents

/-- R231: Load, its refusal (the spec's decision D5, log 5), and the empty program. -/
def Obligations.LoadInstallsTheProgram : Prop :=
  ∀ (s : State) (bytes : List Byte),
    (bytes.length ≤ Config.codeSizeMax → hostLoad bytes s = .next { s with program := bytes, ip := 0, sp := 256 }) ∧
    (Config.codeSizeMax < bytes.length → hostLoad bytes s = .refused .programTooLong) ∧
    ∃ t u, hostLoad [] s = .next t ∧ step t = .next u ∧ u.tickStatus = .error .fetchOutOfRange ∧
      step u = .next u

/-- R233: Clear zeroes both regions (zero is the spec's decision D8) and changes nothing else. -/
def Obligations.ClearZeroesBothRegions : Prop :=
  ∀ s : State, (∀ off, observeHeap (hostClear s) off = 0) ∧ (∀ off, observeGfx (hostClear s) off = 0) ∧
    hostClear s = { s with mem := (hostClear s).mem }

/-- R232's last sentence: Clear and Load together restore everything except the stack array contents;
the recorded status (log 2) is kept. -/
def Obligations.ClearThenLoadRestoresAllButTheStack : Prop :=
  ∀ (s : State) (bytes : List Byte), bytes.length ≤ Config.codeSizeMax → ∃ t u,
    hostLoad bytes (hostClear s) = .next t ∧ hostLoad bytes (powerOn s.stack) = .next u ∧
    t = { u with tickStatus := s.tickStatus }

/-- The invariant holds right after reset: `SP` 256 and no program (R35, R22, R30). The canonical form of memory in it is
the model's own choice (log 8). -/
def Obligations.ResetMeetsTheInvariant : Prop := State.reset.Inv

/-- Every step keeps the invariant: canonical memory, `SP` in `0 .. 256` (R22), a program of at most `2^31 - 1` bytes.
The canonical form is the model's own (log 8). -/
def Obligations.EveryStepKeepsTheInvariant : Prop :=
  ∀ s t : State, s.Inv → step s = .next t → t.Inv

/-- Whatever the host does in whatever order (R230), from PowerOn with any stack contents, the invariant holds and the
program is no longer than `CODE_SIZE_MAX`. THE MODEL'S CHOICES: the canonical form of memory (log 8), `CODE_SIZE_MAX` as
an opaque constant (log 5), and that a PowerOn may be repeated in the run, where R232 has it once (log 11). -/
def Obligations.EveryHostRunKeepsTheInvariant : Prop :=
  ∀ (ops : List HostOp) (contents : Slots) (t : State), hostRun ops (powerOn contents) = .next t →
    t.Inv ∧ t.codeSize ≤ Config.codeSizeMax

/-! ### Rules about the whole machine -/

/-- R30, R69: no tick changes the program. -/
def Obligations.NoTickWritesTheProgram : Prop :=
  ∀ s t : State, step s = .next t → t.program = s.program

/-- R71: among all ticks only those that execute `store` (opcode 3) change the memory map; Load and restart keep it. -/
def Obligations.OnlyStoreChangesMemory : Prop :=
  (∀ s t : State, step s = .next t → t.mem ≠ s.mem → fetch8 (restart s) (restart s).ip.toNat = some 0x03) ∧
  (∀ (bytes : List Byte) (s t : State), hostLoad bytes s = .next t → t.mem = s.mem) ∧
  ∀ s : State, (restart s).mem = s.mem

/-- R28, R39: memory reaches the rest of the machine through `load` only. A tick that does not execute `load` (opcode 2)
does the same to `IP`, `SP`, the stack, the program and the status whatever the memory holds. -/
def Obligations.OnlyLoadLearnsMemory : Prop :=
  ∀ (s t : State) (m : Memory), fetch8 (restart s) (restart s).ip.toNat ≠ some 0x02 → step s = .next t →
    ∃ t', step { s with mem := m } = .next t' ∧ { t' with mem := t.mem } = t
end

