-- ==== Sys2Proof/Laws/Decode.lean ====
section
/-! SUPPORT. Everything the decoder can answer, by the bytes it is given. -/

namespace Sys2Proof

theorem decode_plain (op : Byte) (rest : List Byte) (h0 : op.toNat ≠ 0) (h4 : op.toNat ≠ 4) (h5 : op.toNat ≠ 5) :
    decode (op :: rest) = .ok (decodePlain op) := by
  unfold decode
  split <;> simp_all

/-- The six shapes of a run of program bytes (30_encoding.md R80 to R85). -/
theorem decode_cases (bytes : List Byte) :
    (bytes = [] ∧ decode bytes = .error .noOpcode) ∨
    (∃ op rest w, bytes = op :: rest ∧ rest.length < w ∧
      (op = 0x00 ∧ w = 4 ∨ op = 0x04 ∧ w = 1 ∨ op = 0x05 ∧ w = 2) ∧ decode bytes = .error (.truncated w)) ∨
    (∃ b1 b2 b3 b4 rest, bytes = 0x00 :: b1 :: b2 :: b3 :: b4 :: rest ∧
      decode bytes = .ok (.push32 (imm32 b1 b2 b3 b4))) ∨
    (∃ b1 rest, bytes = 0x04 :: b1 :: rest ∧ decode bytes = .ok (.push8 b1)) ∨
    (∃ b1 b2 rest, bytes = 0x05 :: b1 :: b2 :: rest ∧ decode bytes = .ok (.push16 (imm16 b1 b2))) ∨
    (∃ op rest, bytes = op :: rest ∧ op.toNat ≠ 0 ∧ op.toNat ≠ 4 ∧ op.toNat ≠ 5 ∧
      decode bytes = .ok (decodePlain op)) := by
  rcases bytes with _ | ⟨op, rest⟩
  · exact .inl ⟨rfl, rfl⟩
  by_cases h0 : op = 0
  · subst h0
    rcases rest with _ | ⟨b1, _ | ⟨b2, _ | ⟨b3, _ | ⟨b4, rest⟩⟩⟩⟩
    iterate 4 exact .inr (.inl ⟨_, _, 4, rfl, by simp, by simp, rfl⟩)
    exact .inr (.inr (.inl ⟨_, _, _, _, _, rfl, rfl⟩))
  by_cases h4 : op = 4
  · subst h4
    rcases rest with _ | ⟨b1, rest⟩
    · exact .inr (.inl ⟨_, _, 1, rfl, by simp, by simp, rfl⟩)
    · exact .inr (.inr (.inr (.inl ⟨_, _, rfl, rfl⟩)))
  by_cases h5 : op = 5
  · subst h5
    rcases rest with _ | ⟨b1, _ | ⟨b2, rest⟩⟩
    iterate 2 exact .inr (.inl ⟨_, _, 2, rfl, by simp, by simp, rfl⟩)
    exact .inr (.inr (.inr (.inr (.inl ⟨_, _, _, rfl, rfl⟩))))
  have n0 : op.toNat ≠ 0 := fun h => h0 (BitVec.eq_of_toNat_eq h)
  have n4 : op.toNat ≠ 4 := fun h => h4 (BitVec.eq_of_toNat_eq h)
  have n5 : op.toNat ≠ 5 := fun h => h5 (BitVec.eq_of_toNat_eq h)
  exact .inr (.inr (.inr (.inr (.inr ⟨_, _, rfl, n0, n4, n5, decode_plain _ _ n0 n4 n5⟩))))

/-- The four bytes of a word put together again. -/
theorem imm32_byteOf (v : Word) : imm32 (byteOf v 0) (byteOf v 1) (byteOf v 2) (byteOf v 3) = v := by
  apply BitVec.eq_of_getLsbD_eq
  intro i hi
  simp only [imm32, byteOf, BitVec.getLsbD_append, BitVec.getLsbD_extractLsb']
  by_cases h1 : i < 8
  · simp [h1]
  by_cases h2 : i < 16
  · simp [h1, show i - 8 < 8 by omega, show 8 + (i - 8) = i by omega]
  by_cases h3 : i < 24
  · simp [h1, show ¬ i - 8 < 8 by omega, show i - 8 - 8 < 8 by omega, show 16 + (i - 8 - 8) = i by omega]
  · simp [h1, show ¬ i - 8 < 8 by omega, show ¬ i - 8 - 8 < 8 by omega, show i - 8 - 8 - 8 < 8 by omega,
      show 24 + (i - 8 - 8 - 8) = i by omega]

/-- The two bytes of a half word put together again. -/
theorem imm16_extract (v : BitVec 16) : imm16 (v.extractLsb' 0 8) (v.extractLsb' 8 8) = v := by
  apply BitVec.eq_of_getLsbD_eq
  intro i hi
  simp only [imm16, BitVec.getLsbD_append, BitVec.getLsbD_extractLsb']
  by_cases h1 : i < 8
  · simp [h1]
  · simp [h1, show i - 8 < 8 by omega, show 8 + (i - 8) = i by omega]

end Sys2Proof
end

