-- ==== Sys2Proof/Laws/State.lean ====
section
/-! SUPPORT. One lemma per field per update of the state, so that no proof unfolds a record update. -/

namespace Sys2Proof.Machine

section
variable (s : State) (i : Nat) (v : Word) (e : TickError) (n : Nat)

@[simp] theorem setSlot_ip : (s.setSlot i v).ip = s.ip := rfl
@[simp] theorem setSlot_sp : (s.setSlot i v).sp = s.sp := rfl
@[simp] theorem setSlot_stack : (s.setSlot i v).stack = setSlots s.stack i v := rfl
@[simp] theorem setSlot_mem : (s.setSlot i v).mem = s.mem := rfl
@[simp] theorem setSlot_program : (s.setSlot i v).program = s.program := rfl
@[simp] theorem setSlot_tickStatus : (s.setSlot i v).tickStatus = s.tickStatus := rfl

@[simp] theorem raiseError_ip : (raiseError e s).ip = s.ip := rfl
@[simp] theorem raiseError_sp : (raiseError e s).sp = s.sp := rfl
@[simp] theorem raiseError_stack : (raiseError e s).stack = s.stack := rfl
@[simp] theorem raiseError_mem : (raiseError e s).mem = s.mem := rfl
@[simp] theorem raiseError_program : (raiseError e s).program = s.program := rfl
@[simp] theorem raiseError_tickStatus : (raiseError e s).tickStatus = .error e := rfl

@[simp] theorem returnOk_ip : (returnOk s).ip = s.ip := rfl
@[simp] theorem returnOk_sp : (returnOk s).sp = s.sp := rfl
@[simp] theorem returnOk_stack : (returnOk s).stack = s.stack := rfl
@[simp] theorem returnOk_mem : (returnOk s).mem = s.mem := rfl
@[simp] theorem returnOk_program : (returnOk s).program = s.program := rfl
@[simp] theorem returnOk_tickStatus : (returnOk s).tickStatus = .ok := rfl

@[simp] theorem advance_ip : (advance n s).ip = s.ip + BitVec.ofNat 32 n := rfl
@[simp] theorem advance_sp : (advance n s).sp = s.sp := rfl
@[simp] theorem advance_stack : (advance n s).stack = s.stack := rfl
@[simp] theorem advance_mem : (advance n s).mem = s.mem := rfl
@[simp] theorem advance_program : (advance n s).program = s.program := rfl
@[simp] theorem advance_tickStatus : (advance n s).tickStatus = s.tickStatus := rfl

@[simp] theorem hostClear_ip : (hostClear s).ip = s.ip := rfl
@[simp] theorem hostClear_sp : (hostClear s).sp = s.sp := rfl
@[simp] theorem hostClear_stack : (hostClear s).stack = s.stack := rfl
@[simp] theorem hostClear_mem : (hostClear s).mem = [] := rfl
@[simp] theorem hostClear_program : (hostClear s).program = s.program := rfl
@[simp] theorem hostClear_tickStatus : (hostClear s).tickStatus = s.tickStatus := rfl

end

/-- The restart writes `IP` and `SP` and nothing else. -/
theorem restart_cases (s : State) :
    (s.codeSize ≤ s.ip.toNat ∧ restart s = { s with ip := 0, sp := 256 }) ∨
    (s.ip.toNat < s.codeSize ∧ restart s = s) := by
  unfold restart
  split
  · exact .inl ⟨‹_›, rfl⟩
  · exact .inr ⟨by omega, rfl⟩

@[simp] theorem restart_stack (s : State) : (restart s).stack = s.stack := by
  rcases restart_cases s with ⟨_, h⟩ | ⟨_, h⟩ <;> rw [h]

@[simp] theorem restart_mem (s : State) : (restart s).mem = s.mem := by
  rcases restart_cases s with ⟨_, h⟩ | ⟨_, h⟩ <;> rw [h]

@[simp] theorem restart_program (s : State) : (restart s).program = s.program := by
  rcases restart_cases s with ⟨_, h⟩ | ⟨_, h⟩ <;> rw [h]

end Sys2Proof.Machine
end

