-- ==== Sys2Proof/Laws/Fetch.lean ====
section
/-! SUPPORT. What fetching and one step can do. -/

namespace Sys2Proof.Machine

/-- The bytes the decoder is given are `Fetch8(IP)`, `Fetch8(IP + 1)`, … (10_state.md R31, R32). -/
theorem bytesAtIp_get (s : State) (k : Nat) : (bytesAtIp s)[k]? = fetch8 s (s.ip.toNat + k) := by
  simp [bytesAtIp, fetch8, List.getElem?_drop]

/-- Everything steps T2 to T6 can do. -/
theorem fetchDecode_cases (s : State) :
    (∃ i, decode (bytesAtIp s) = .ok i ∧ fetchDecode s = .done i (advance (instrLength i) s)) ∨
    (decode (bytesAtIp s) = .error .noOpcode ∧ fetchDecode s = .raised .fetchOutOfRange s) ∨
    (∃ w, decode (bytesAtIp s) = .error (.truncated w) ∧
      fetchDecode s = .raised .fetchOutOfRange (advance (1 + w) s)) := by
  unfold fetchDecode
  rcases decode (bytesAtIp s) with (_ | w) | i
  · exact .inr (.inl ⟨rfl, rfl⟩)
  · exact .inr (.inr ⟨w, rfl, rfl⟩)
  · exact .inl ⟨i, rfl, rfl⟩

/-- Everything one step can do: run the decoded instruction with `IP` past it, or end with `FetchOutOfRange`. -/
theorem step_cases (s : State) :
    (∃ i, decode (bytesAtIp (restart s)) = .ok i ∧ step s = exec i (advance (instrLength i) (restart s))) ∨
    (decode (bytesAtIp (restart s)) = .error .noOpcode ∧ step s = .next (raiseError .fetchOutOfRange (restart s))) ∨
    (∃ w, decode (bytesAtIp (restart s)) = .error (.truncated w) ∧
      step s = .next (raiseError .fetchOutOfRange (advance (1 + w) (restart s)))) := by
  unfold step fetchInstr
  rcases fetchDecode_cases (restart s) with ⟨i, h, e⟩ | ⟨h, e⟩ | ⟨w, h, e⟩
  · exact .inl ⟨i, h, by rw [e]⟩
  · exact .inr (.inl ⟨h, by rw [e]⟩)
  · exact .inr (.inr ⟨w, h, by rw [e]⟩)

end Sys2Proof.Machine
end

