-- ==== Sys2Proof/Laws/Memory.lean ====
section
/-! SUPPORT. The data memory: read after write, what a write leaves alone, and that every operation keeps the canonical
form. -/

namespace Sys2Proof.Machine

theorem read_insert (m : Memory) (a b : Nat) (v : Byte) :
    Memory.read (Memory.insert m a v) b = if a = b then v else Memory.read m b := by
  induction m with
  | nil => simp [Memory.insert, Memory.read]
  | cons c rest ih =>
    obtain ⟨k, w⟩ := c
    unfold Memory.insert
    split
    · simp [Memory.read]
    · split
      · subst_vars
        by_cases h : k = b <;> simp [Memory.read, h]
      · by_cases hk : k = b
        · subst hk
          simp [Memory.read, ‹¬a = k›]
        · simp [Memory.read, hk, ih]

theorem read_filter (m : Memory) (a b : Nat) :
    Memory.read (m.filter (fun c => c.1 != a)) b = if a = b then unlistedByte else Memory.read m b := by
  induction m with
  | nil => simp [Memory.read]
  | cons c rest ih =>
    obtain ⟨k, w⟩ := c
    by_cases hk : k = a
    · subst hk
      simp [ih, Memory.read]
      split <;> simp_all
    · by_cases hb : k = b
      · subst hb
        simp [Memory.read, hk, show a ≠ k from fun h => hk h.symm]
      · simp [Memory.read, hk, hb, ih]

/-- Reading a cell after writing one: the written byte there, the old byte elsewhere. -/
theorem read_write (m : Memory) (a b : Nat) (v : Byte) :
    Memory.read (Memory.write m a v) b = if a = b then v else Memory.read m b := by
  unfold Memory.write
  split
  · rw [read_filter]; simp_all
  · exact read_insert m a b v

theorem rising_tail {c : Host.Cell} {m : Memory} (h : Memory.rising (c :: m) = true) : Memory.rising m = true := by
  cases m with
  | nil => rfl
  | cons d rest =>
    obtain ⟨a, x⟩ := c; obtain ⟨b, y⟩ := d
    simp [Memory.rising] at h
    exact h.2

/-- A rising list is one whose head lies below every later address. -/
theorem rising_cons (c : Host.Cell) (m : Memory) :
    Memory.rising (c :: m) = true ↔ (∀ d ∈ m, c.1 < d.1) ∧ Memory.rising m = true := by
  induction m generalizing c with
  | nil => simp [Memory.rising]
  | cons d rest ih =>
    obtain ⟨a, x⟩ := c; obtain ⟨b, y⟩ := d
    simp only [Memory.rising, Bool.and_eq_true, decide_eq_true_eq, List.mem_cons, forall_eq_or_imp]
    constructor
    · rintro ⟨h1, h2⟩
      refine ⟨⟨h1, fun d hd => ?_⟩, h2⟩
      have := ((ih (b, y)).1 h2).1 d hd
      simp only at this ⊢; omega
    · rintro ⟨⟨h1, _⟩, h2⟩
      exact ⟨h1, h2⟩

theorem rising_filter (m : Memory) (p : Host.Cell → Bool) (h : Memory.rising m = true) :
    Memory.rising (m.filter p) = true := by
  induction m with
  | nil => rfl
  | cons c rest ih =>
    obtain ⟨h1, h2⟩ := (rising_cons c rest).1 h
    rw [List.filter_cons]
    split
    · exact (rising_cons _ _).2 ⟨fun d hd => h1 d (List.mem_of_mem_filter hd), ih h2⟩
    · exact ih h2

theorem mem_insert (m : Memory) (a : Nat) (v : Byte) (d : Host.Cell) (h : d ∈ Memory.insert m a v) :
    d = (a, v) ∨ d ∈ m := by
  induction m with
  | nil => simpa [Memory.insert] using h
  | cons c rest ih =>
    obtain ⟨k, w⟩ := c
    unfold Memory.insert at h
    split at h
    · simpa using h
    · split at h
      · rcases List.mem_cons.1 h with h | h
        · exact .inl h
        · exact .inr (List.mem_cons_of_mem _ h)
      · rcases List.mem_cons.1 h with h | h
        · exact .inr (h ▸ List.mem_cons_self)
        · exact (ih h).imp id (List.mem_cons_of_mem _)

theorem rising_insert (m : Memory) (a : Nat) (v : Byte) (h : Memory.rising m = true) :
    Memory.rising (Memory.insert m a v) = true := by
  induction m with
  | nil => rfl
  | cons c rest ih =>
    obtain ⟨k, w⟩ := c
    obtain ⟨h1, h2⟩ := (rising_cons _ _).1 h
    unfold Memory.insert
    split
    · refine (rising_cons _ _).2 ⟨fun d hd => ?_, h⟩
      rcases List.mem_cons.1 hd with rfl | hd
      · assumption
      · have := h1 d hd
        simp only at this ⊢; omega
    · split
      · subst_vars
        exact (rising_cons _ _).2 ⟨h1, h2⟩
      · refine (rising_cons _ _).2 ⟨fun d hd => ?_, ih h2⟩
        rcases mem_insert _ _ _ _ hd with rfl | hd
        · simp only; omega
        · exact h1 d hd

/-- The canonical form, entry by entry. -/
theorem wf_iff (m : Memory) :
    Memory.wf m = true ↔ Memory.rising m = true ∧ ∀ c ∈ m, c.2 ≠ unlistedByte ∧ cellExists c.1 = true := by
  simp [Memory.wf, List.all_eq_true]

/-- Writing a cell that exists keeps the canonical form. -/
theorem write_wf (m : Memory) (a : Nat) (v : Byte) (ha : cellExists a = true) (h : Memory.wf m = true) :
    Memory.wf (Memory.write m a v) = true := by
  obtain ⟨h1, h2⟩ := (wf_iff m).1 h
  rw [wf_iff]
  unfold Memory.write
  split
  · exact ⟨rising_filter _ _ h1, fun c hc => h2 c (List.mem_of_mem_filter hc)⟩
  · refine ⟨rising_insert _ _ _ h1, fun c hc => ?_⟩
    rcases mem_insert _ _ _ _ hc with rfl | hc
    · exact ⟨‹_›, ha⟩
    · exact h2 c hc

/-- The cell of an address, if it has one, exists. -/
theorem cellOf_exists (addr : Word) (k a : Nat) (h : cellOf addr k = some a) : cellExists a = true := by
  unfold cellOf at h
  split at h
  · have := (addr.setWidth 12 + BitVec.ofNat 12 k).isLt
    simp only [Option.some.injEq] at h
    simp only [cellExists, Config.heapSize, ← h, Bool.or_eq_true, decide_eq_true_eq]
    omega
  · have := (addr.setWidth 10 + BitVec.ofNat 10 k).isLt
    simp only [Option.some.injEq] at h
    simp only [cellExists, Config.heapSize, Config.gfxSize, gfxBase, ← h, Bool.or_eq_true, Bool.and_eq_true,
      decide_eq_true_eq]
    omega
  · cases h
  · cases h

/-- The four bytes of one word lie in four different cells (R58). -/
theorem cellOf_injective (addr : Word) (j k a : Nat) (hj : j < 4) (hk : k < 4)
    (h1 : cellOf addr j = some a) (h2 : cellOf addr k = some a) : j = k := by
  rcases hs : segmentOf addr <;> simp only [cellOf, hs, Option.some.injEq, reduceCtorEq] at h1 h2
  all_goals
    have := h1.trans h2.symm
    simp only [BitVec.toNat_add, BitVec.toNat_ofNat, BitVec.toNat_setWidth] at this
    omega

/-- What one byte write does to any cell. -/
theorem read_writeByteAt (m : Memory) (addr : Word) (k : Nat) (v : Byte) (a : Nat) :
    Memory.read (writeByteAt m addr k v) a = if cellOf addr k = some a then v else Memory.read m a := by
  unfold writeByteAt
  split
  · rw [read_write]; simp_all
  · simp_all

theorem writeByteAt_wf (m : Memory) (addr : Word) (k : Nat) (v : Byte) (h : Memory.wf m = true) :
    Memory.wf (writeByteAt m addr k v) = true := by
  unfold writeByteAt
  split
  · exact write_wf _ _ _ (cellOf_exists _ _ _ ‹_›) h
  · exact h

/-- `MemWrite` keeps the canonical form. -/
theorem memWrite_wf (m : Memory) (addr v : Word) (h : Memory.wf m = true) : Memory.wf (memWrite m addr v) = true :=
  writeByteAt_wf _ _ _ _ (writeByteAt_wf _ _ _ _ (writeByteAt_wf _ _ _ _ (writeByteAt_wf _ _ _ _ h)))

/-- Everything `MemWrite` does to any cell: the last of the four bytes that lies there, else what it held. -/
theorem read_memWrite (m : Memory) (addr v : Word) (a : Nat) :
    Memory.read (memWrite m addr v) a =
      if cellOf addr 3 = some a then byteOf v 3 else if cellOf addr 2 = some a then byteOf v 2
      else if cellOf addr 1 = some a then byteOf v 1 else if cellOf addr 0 = some a then byteOf v 0
      else Memory.read m a := by
  simp only [memWrite, read_writeByteAt]

/-- Reset's memory and Clear's have the canonical form. -/
theorem nil_wf : Memory.wf [] = true := rfl

theorem reset_mem_wf : Memory.wf State.reset.mem = true := rfl

theorem hostClear_wf (s : State) : Memory.wf (hostClear s).mem = true := rfl

end Sys2Proof.Machine
end

