-- ==== Sys2Proof/Laws/Ops.lean ====
section
/-! SUPPORT. One specification lemma per shared operation: everything it can do, guards included. -/

namespace Sys2Proof.Machine

section
variable {α β : Type}

@[simp] theorem bind_done (a : α) (s : State) (f : α → State → Micro β) : (Micro.done a s).bind f = f a s := rfl
@[simp] theorem bind_raised (e : TickError) (s : State) (f : α → State → Micro β) :
    (Micro.raised e s : Micro α).bind f = .raised e s := rfl

/-- A sequence is done exactly when both parts are. -/
theorem bind_eq_done (m : Micro α) (f : α → State → Micro β) (b : β) (t : State) :
    m.bind f = .done b t ↔ ∃ a u, m = .done a u ∧ f a u = .done b t := by
  cases m <;> simp

/-- A sequence raises where its first part raises, or where its second part does. -/
theorem bind_eq_raised (m : Micro α) (f : α → State → Micro β) (e : TickError) (t : State) :
    m.bind f = .raised e t ↔ m = .raised e t ∨ ∃ a u, m = .done a u ∧ f a u = .raised e t := by
  cases m <;> simp

end

@[simp] theorem endTick_done (a : Unit) (s : State) : endTick (.done a s) = .next (returnOk s) := rfl
@[simp] theorem endTick_raised (e : TickError) (s : State) : endTick (.raised e s) = .next (raiseError e s) := rfl

/-- A tick ends in a next state: what the micro-operations left, with the status. -/
theorem endTick_cases (m : Micro Unit) (t : State) (h : endTick m = .next t) :
    (∃ s, m = .done () s ∧ t = returnOk s) ∨ (∃ e s, m = .raised e s ∧ t = raiseError e s) := by
  cases m with
  | done a s => exact .inl ⟨s, rfl, by simpa using h.symm⟩
  | raised e s => exact .inr ⟨e, s, rfl, by simpa using h.symm⟩

/-- Reading a slot after writing one. -/
theorem slot_setSlot (s : State) (i j : Nat) (v : Word) (hi : i < 256) :
    (s.setSlot i v).slot j = if i = j then v else s.slot j := by
  have hl : i < s.stack.val.length := by rw [s.stack.property]; exact hi
  simp only [State.slot, setSlot_stack, setSlots, List.getElem?_set, hl, if_true]
  split <;> simp

theorem setSlots_of_le (a : Slots) (i : Nat) (v : Word) (hi : 256 ≤ i) : setSlots a i v = a := by
  apply Subtype.ext
  exact List.set_eq_of_length_le (by rw [a.property]; exact hi)

/-- `Push` on a full stack. -/
theorem push_full (v : Word) (s : State) (h : s.sp = 0) : push v s = .raised .stackOverflow s := by
  simp [push, h]

/-- `Push` where there is room. -/
theorem push_room (v : Word) (s : State) (h : s.sp ≠ 0) :
    push v s = .done () { s with sp := s.sp - 1, stack := setSlots s.stack (s.sp.toNat - 1) v } := by
  have hs : (s.sp - 1).toNat = s.sp.toNat - 1 := by
    have : s.sp.toNat ≠ 0 := fun h0 => h (BitVec.eq_of_toNat_eq (by simpa using h0))
    bv_omega
  unfold push
  rw [if_neg h, hs]
  rfl

/-- Everything `Push` can do. -/
theorem push_cases (v : Word) (s : State) :
    (s.sp = 0 ∧ push v s = .raised .stackOverflow s) ∨
    (s.sp ≠ 0 ∧ push v s = .done () { s with sp := s.sp - 1, stack := setSlots s.stack (s.sp.toNat - 1) v }) := by
  by_cases h : s.sp = 0
  · exact .inl ⟨h, push_full v s h⟩
  · exact .inr ⟨h, push_room v s h⟩

/-- `Pop` on an empty stack. -/
theorem pop_empty (s : State) (h : 256 ≤ s.sp.toNat) : pop s = .raised .stackUnderflow s := by
  simp [pop, h]

/-- `Pop` where there is a value. -/
theorem pop_live (s : State) (h : s.sp.toNat < 256) :
    pop s = .done (s.slot s.sp.toNat) { s with sp := s.sp + 1 } := by
  simp [pop, Nat.not_le.2 h]

/-- Everything `Pop` can do. -/
theorem pop_cases (s : State) :
    (256 ≤ s.sp.toNat ∧ pop s = .raised .stackUnderflow s) ∨
    (s.sp.toNat < 256 ∧ pop s = .done (s.slot s.sp.toNat) { s with sp := s.sp + 1 }) := by
  rcases Nat.lt_or_ge s.sp.toNat 256 with h | h
  · exact .inr ⟨h, pop_live s h⟩
  · exact .inl ⟨h, pop_empty s h⟩

/-- Everything an indexed read can do. -/
theorem stackRead_cases (i : Int) (s : State) :
    (i < 0 ∧ stackRead i s = .raised .stackOverflow s) ∨
    (256 ≤ i ∧ stackRead i s = .raised .stackUnderflow s) ∨
    (0 ≤ i ∧ i < 256 ∧ stackRead i s = .done (s.slot i.toNat) s) := by
  unfold stackRead
  split
  · exact .inl ⟨‹_›, rfl⟩
  · split
    · exact .inr (.inl ⟨‹_›, rfl⟩)
    · exact .inr (.inr ⟨by omega, by omega, rfl⟩)

/-- Everything an indexed write can do. -/
theorem stackWrite_cases (i : Int) (v : Word) (s : State) :
    (i < 0 ∧ stackWrite i v s = .raised .stackOverflow s) ∨
    (256 ≤ i ∧ stackWrite i v s = .raised .stackUnderflow s) ∨
    (0 ≤ i ∧ i < 256 ∧ stackWrite i v s = .done () (s.setSlot i.toNat v)) := by
  unfold stackWrite
  split
  · exact .inl ⟨‹_›, rfl⟩
  · split
    · exact .inr (.inl ⟨‹_›, rfl⟩)
    · exact .inr (.inr ⟨by omega, by omega, rfl⟩)

@[simp] theorem storeWord_eq (addr v : Word) (s : State) :
    storeWord addr v s = .done () { s with mem := memWrite s.mem addr v } := rfl

@[simp] theorem jumpTo_eq (target : Word) (s : State) : jumpTo target s = .done () { s with ip := target } := rfl

end Sys2Proof.Machine
end

