-- ==== Sys2Proof/Laws/Operands.lean ====
section
/-! SUPPORT. One lemma per operand pattern: everything it can do in any state, fewer values than it pops included. -/

namespace Sys2Proof.Machine

theorem sp_add_one_toNat (x : BitVec 9) (h : x.toNat ≤ 255) : (x + 1).toNat = x.toNat + 1 := by bv_omega

theorem sp_add_two_toNat (x : BitVec 9) (h : x.toNat ≤ 254) : (x + 2).toNat = x.toNat + 2 := by bv_omega

theorem sp_ne_zero (x : BitVec 9) (h : 1 ≤ x.toNat) : x ≠ 0 := by rintro rfl; simp at h

/-- Popping two values. -/
theorem popPair_cases (s : State) :
    (256 ≤ s.sp.toNat ∧ popPair s = .raised .stackUnderflow s) ∨
    (s.sp.toNat = 255 ∧ popPair s = .raised .stackUnderflow { s with sp := 256 }) ∨
    (s.sp.toNat ≤ 254 ∧ popPair s = .done (s.nth 1, s.nth 0) { s with sp := s.sp + 2 }) := by
  unfold popPair
  rcases pop_cases s with ⟨h, e⟩ | ⟨h, e⟩
  · exact .inl ⟨h, by rw [e]; rfl⟩
  · have h1 := sp_add_one_toNat s.sp (by omega)
    rw [e, bind_done]
    rcases pop_cases { s with sp := s.sp + 1 } with ⟨h2, e2⟩ | ⟨h2, e2⟩ <;> simp only [h1] at h2
    · have h3 : s.sp = 255 := BitVec.eq_of_toNat_eq (by show _ = 255; omega)
      exact .inr (.inl ⟨by omega, by rw [e2, bind_raised, h3]; rfl⟩)
    · refine .inr (.inr ⟨by omega, ?_⟩)
      have h3 : s.sp + 1 + 1 = s.sp + 2 := by bv_omega
      rw [e2, bind_done]
      simp only [h1, h3]
      rfl

/-- Pushing a result over two popped values. -/
theorem push_over_pair (v : Word) (s : State) (h : s.sp.toNat ≤ 254) :
    push v { s with sp := s.sp + 2 } =
      .done () { s with sp := s.sp + 1, stack := setSlots s.stack (s.sp.toNat + 1) v } := by
  have h2 := sp_add_two_toNat s.sp h
  rw [push_room _ _ (sp_ne_zero _ (by simp only [h2]; omega))]
  simp only [h2]
  congr 2
  bv_omega

/-- Pushing a result over one popped value. -/
theorem push_over_one (v : Word) (s : State) (h : s.sp.toNat ≤ 255) :
    push v { s with sp := s.sp + 1 } = .done () { s with stack := setSlots s.stack s.sp.toNat v } := by
  have h1 := sp_add_one_toNat s.sp h
  rw [push_room _ _ (sp_ne_zero _ (by simp only [h1]; omega))]
  simp only [h1, Nat.add_sub_cancel]
  congr 2
  bv_omega

/-- A unary operation. -/
theorem unaryOp_cases (f : Word → Word) (s : State) :
    (256 ≤ s.sp.toNat ∧ unaryOp f s = .raised .stackUnderflow s) ∨
    (s.sp.toNat ≤ 255 ∧ unaryOp f s = .done () { s with stack := setSlots s.stack s.sp.toNat (f (s.nth 0)) }) := by
  unfold unaryOp
  rcases pop_cases s with ⟨h, e⟩ | ⟨h, e⟩ <;> rw [e]
  · exact .inl ⟨h, rfl⟩
  · exact .inr ⟨by omega, by rw [bind_done, push_over_one _ _ (by omega)]; rfl⟩

/-- A binary operation. -/
theorem binaryOp_cases (f : Word → Word → Word) (s : State) :
    (256 ≤ s.sp.toNat ∧ binaryOp f s = .raised .stackUnderflow s) ∨
    (s.sp.toNat = 255 ∧ binaryOp f s = .raised .stackUnderflow { s with sp := 256 }) ∨
    (s.sp.toNat ≤ 254 ∧ binaryOp f s =
      .done () { s with sp := s.sp + 1, stack := setSlots s.stack (s.sp.toNat + 1) (f (s.nth 1) (s.nth 0)) }) := by
  unfold binaryOp
  rcases popPair_cases s with ⟨h, e⟩ | ⟨h, e⟩ | ⟨h, e⟩ <;> rw [e]
  · exact .inl ⟨h, rfl⟩
  · exact .inr (.inl ⟨h, rfl⟩)
  · exact .inr (.inr ⟨h, by rw [bind_done, push_over_pair _ _ h]⟩)

/-- A division. -/
theorem divideOp_cases (f : Word → Word → Word) (s : State) :
    (256 ≤ s.sp.toNat ∧ divideOp f s = .raised .stackUnderflow s) ∨
    (s.sp.toNat = 255 ∧ divideOp f s = .raised .stackUnderflow { s with sp := 256 }) ∨
    (s.sp.toNat ≤ 254 ∧ s.nth 0 = 0 ∧ divideOp f s = .raised .arithmeticError { s with sp := s.sp + 2 }) ∨
    (s.sp.toNat ≤ 254 ∧ s.nth 0 ≠ 0 ∧ divideOp f s =
      .done () { s with sp := s.sp + 1, stack := setSlots s.stack (s.sp.toNat + 1) (f (s.nth 1) (s.nth 0)) }) := by
  unfold divideOp
  rcases popPair_cases s with ⟨h, e⟩ | ⟨h, e⟩ | ⟨h, e⟩ <;> rw [e]
  · exact .inl ⟨h, rfl⟩
  · exact .inr (.inl ⟨h, rfl⟩)
  · rw [bind_done]
    by_cases hz : s.nth 0 = 0
    · exact .inr (.inr (.inl ⟨h, hz, by rw [if_pos hz]⟩))
    · exact .inr (.inr (.inr ⟨h, hz, by rw [if_neg hz, push_over_pair _ _ h]⟩))

/-- A jump on one value. -/
theorem jumpIfOne_cases (cond : Word → Bool) (s : State) :
    (256 ≤ s.sp.toNat ∧ jumpIfOne cond s = .raised .stackUnderflow s) ∨
    (s.sp.toNat = 255 ∧ jumpIfOne cond s = .raised .stackUnderflow { s with sp := 256 }) ∨
    (s.sp.toNat ≤ 254 ∧ jumpIfOne cond s =
      .done () { s with sp := s.sp + 2, ip := if cond (s.nth 1) then s.nth 0 else s.ip }) := by
  have split : jumpIfOne cond s =
      (popPair s).bind fun p s => if cond p.1 then jumpTo p.2 s else .done () s := by
    unfold jumpIfOne popPair
    cases pop s with
    | raised => rfl
    | done a s => simp only [bind_done]; cases pop s <;> rfl
  rw [split]
  rcases popPair_cases s with ⟨h, e⟩ | ⟨h, e⟩ | ⟨h, e⟩ <;> rw [e]
  · exact .inl ⟨h, rfl⟩
  · exact .inr (.inl ⟨h, rfl⟩)
  · refine .inr (.inr ⟨h, ?_⟩)
    rw [bind_done]
    split <;> rfl

/-- A relational jump. -/
theorem jumpIfTwo_cases (cond : Word → Word → Bool) (s : State) :
    (256 ≤ s.sp.toNat ∧ jumpIfTwo cond s = .raised .stackUnderflow s) ∨
    (254 ≤ s.sp.toNat ∧ s.sp.toNat ≤ 255 ∧ jumpIfTwo cond s = .raised .stackUnderflow { s with sp := 256 }) ∨
    (s.sp.toNat ≤ 253 ∧ jumpIfTwo cond s =
      .done () { s with sp := s.sp + 3, ip := if cond (s.nth 2) (s.nth 1) then s.nth 0 else s.ip }) := by
  unfold jumpIfTwo
  rcases pop_cases s with ⟨h, e⟩ | ⟨h, e⟩ <;> rw [e]
  · exact .inl ⟨h, rfl⟩
  · have h1 := sp_add_one_toNat s.sp (by omega)
    rw [bind_done]
    rcases popPair_cases { s with sp := s.sp + 1 } with ⟨h2, e2⟩ | ⟨h2, e2⟩ | ⟨h2, e2⟩ <;> simp only [h1] at h2
    · have h3 : s.sp + 1 = 256 := BitVec.eq_of_toNat_eq (by rw [h1]; show _ = 256; omega)
      exact .inr (.inl ⟨by omega, by omega, by rw [e2, bind_raised, h3]⟩)
    · exact .inr (.inl ⟨by omega, by omega, by rw [e2]; rfl⟩)
    · refine .inr (.inr ⟨by omega, ?_⟩)
      have h3 : s.sp + 1 + 2 = s.sp + 3 := by bv_omega
      rw [e2, bind_done]
      simp only [State.nth, h1, h3, jumpTo_eq]
      split <;> simp_all [State.slot, Nat.add_assoc]

end Sys2Proof.Machine
end

