-- ==== Sys2Proof/Laws/PerInstr.lean ====
section
/-! SUPPORT. Facts about every instruction as syntax, one lemma per constructor. -/

namespace Sys2Proof.Laws

/-- 30_encoding.md R81: an encoded instruction has `1 + ImmWidth(op)` bytes, the length by which `IP` advances. -/
def Width.Statement (i : Instr) : Prop :=
  i.wf = true → (encode i).length = instrLength i ∧ instrLength i = 1 + immWidth (opcodeOf i)

theorem Width.push32 (imm : BitVec 32) : Width.Statement (.push32 imm) := fun _ => ⟨rfl, rfl⟩
theorem Width.pop : Width.Statement .pop := fun _ => ⟨rfl, rfl⟩
theorem Width.load : Width.Statement .load := fun _ => ⟨rfl, rfl⟩
theorem Width.store : Width.Statement .store := fun _ => ⟨rfl, rfl⟩
theorem Width.push8 (imm : BitVec 8) : Width.Statement (.push8 imm) := fun _ => ⟨rfl, rfl⟩
theorem Width.push16 (imm : BitVec 16) : Width.Statement (.push16 imm) := fun _ => ⟨rfl, rfl⟩
theorem Width.clone : Width.Statement .clone := fun _ => ⟨rfl, rfl⟩
theorem Width.loads : Width.Statement .loads := fun _ => ⟨rfl, rfl⟩
theorem Width.stors : Width.Statement .stors := fun _ => ⟨rfl, rfl⟩
theorem Width.swap : Width.Statement .swap := fun _ => ⟨rfl, rfl⟩
theorem Width.jmp : Width.Statement .jmp := fun _ => ⟨rfl, rfl⟩
theorem Width.jz : Width.Statement .jz := fun _ => ⟨rfl, rfl⟩
theorem Width.jnz : Width.Statement .jnz := fun _ => ⟨rfl, rfl⟩
theorem Width.jg : Width.Statement .jg := fun _ => ⟨rfl, rfl⟩
theorem Width.jge : Width.Statement .jge := fun _ => ⟨rfl, rfl⟩
theorem Width.je : Width.Statement .je := fun _ => ⟨rfl, rfl⟩
theorem Width.jne : Width.Statement .jne := fun _ => ⟨rfl, rfl⟩
theorem Width.and : Width.Statement .and := fun _ => ⟨rfl, rfl⟩
theorem Width.or : Width.Statement .or := fun _ => ⟨rfl, rfl⟩
theorem Width.xor : Width.Statement .xor := fun _ => ⟨rfl, rfl⟩
theorem Width.not : Width.Statement .not := fun _ => ⟨rfl, rfl⟩
theorem Width.inc : Width.Statement .inc := fun _ => ⟨rfl, rfl⟩
theorem Width.dec : Width.Statement .dec := fun _ => ⟨rfl, rfl⟩
theorem Width.add : Width.Statement .add := fun _ => ⟨rfl, rfl⟩
theorem Width.sub : Width.Statement .sub := fun _ => ⟨rfl, rfl⟩
theorem Width.shl : Width.Statement .shl := fun _ => ⟨rfl, rfl⟩
theorem Width.shr : Width.Statement .shr := fun _ => ⟨rfl, rfl⟩
theorem Width.mul : Width.Statement .mul := fun _ => ⟨rfl, rfl⟩
theorem Width.div : Width.Statement .div := fun _ => ⟨rfl, rfl⟩
theorem Width.mod : Width.Statement .mod := fun _ => ⟨rfl, rfl⟩
theorem Width.neg : Width.Statement .neg := fun _ => ⟨rfl, rfl⟩
theorem Width.abs : Width.Statement .abs := fun _ => ⟨rfl, rfl⟩
theorem Width.debug : Width.Statement .debug := fun _ => ⟨rfl, rfl⟩
theorem Width.nop : Width.Statement .nop := fun _ => ⟨rfl, rfl⟩
/-- An undefined byte is none of 0, 4, 5, so it takes no immediate (R84). -/
theorem Width.undefinedOpcode (op : BitVec 8) : Width.Statement (.undefinedOpcode op) := by
  intro h
  have key : ∀ b : BitVec 8, isUndefinedOpcode b = true → immWidth b = 0 := by decide
  exact ⟨rfl, by simp [instrLength, opcodeOf, key op h]⟩

end Sys2Proof.Laws
end

