-- ==== Sys2Proof/Tests/Slice0.lean ====
section
/-! SUPPORT. The model's own tests: expected results are the worked examples and derived vectors of 95_test_vectors.md (the
ids K, M, J, A, X, F, H and S are its own) or written out from the encoding rules. Each is one step or one meaning on a
small state. The `witness_` theorems show states and operands that meet the hypotheses of the statements. -/

namespace Sys2Proof.Tests

set_option Elab.async false

open Sys2Proof.Machine

/-! ### Helpers -/

/-- The state whose live stack is `vals`, oldest first (00_scope.md R8), and everything else as after reset. -/
def onStack (vals : List Word) : State :=
  { State.reset with
    sp := BitVec.ofNat 9 (256 - vals.length)
    stack := vals.zipIdx.foldl (fun a p => setSlots a (255 - p.2) p.1) State.reset.stack }

/-- The reset state with `SP` at `n`. -/
def atSp (n : Nat) : State := { State.reset with sp := BitVec.ofNat 9 n }

/-- The reset state with a program loaded. -/
def withProgram (bytes : List Byte) : State := { State.reset with program := bytes }

/-- The live stack, oldest first. -/
def live (s : State) : List Word := (List.range (256 - s.sp.toNat)).map fun k => s.slot (255 - k)

/-- The state an outcome leaves, reset where there is none. -/
def after (o : Host.Outcome State Fault Refusal) : State :=
  match o with
  | .next t => t
  | .fault _ => State.reset
  | .refused _ => State.reset

/-- Status and live stack after an outcome. -/
def result (o : Host.Outcome State Fault Refusal) : Option (Status × List Word) :=
  match o with
  | .next t => some (t.tickStatus, live t)
  | .fault _ => none
  | .refused _ => none

/-! ### WellFormed refuses what is ill formed -/

/-- Each byte beside the ranges of R84 is a defined opcode, so `undefinedOpcode` may not carry it. -/
theorem test_wf_refuses_defined_bytes :
    [0x00, 9, 16, 22, 32, 46, 254, 255].all (fun b => !(Instr.undefinedOpcode (BitVec.ofNat 8 b)).wf) = true := by
  decide

theorem test_wf_accepts_range_ends :
    [10, 15, 23, 31, 47, 253].all (fun b => (Instr.undefinedOpcode (BitVec.ofNat 8 b)).wf) = true := by decide

/-- R84: there are 222 undefined opcode values. -/
theorem test_222_undefined_opcodes :
    ((List.range 256).filter fun n => isUndefinedOpcode (BitVec.ofNat 8 n)).length = 222 := by decide +kernel

/-! ### Decoding: every constructor from bytes written out by R83 -/

theorem test_decode_literals :
    decode [0x00, 0x78, 0x56, 0x34, 0x12] = .ok (.push32 0x12345678) ∧ decode [0x04, 0x80] = .ok (.push8 128) ∧
    decode [0x05, 0x34, 0x12] = .ok (.push16 0x1234) := by decide

theorem test_decode_stack_ops :
    decode [0x01] = .ok .pop ∧ decode [0x06] = .ok .clone ∧ decode [0x07] = .ok .loads ∧ decode [0x08] = .ok .stors ∧
    decode [0x09] = .ok .swap := by decide

theorem test_decode_memory : decode [0x02] = .ok .load ∧ decode [0x03] = .ok .store := by decide

theorem test_decode_jumps :
    decode [0x10] = .ok .jmp ∧ decode [0x11] = .ok .jz ∧ decode [0x12] = .ok .jnz ∧ decode [0x13] = .ok .jg ∧
    decode [0x14] = .ok .jge ∧ decode [0x15] = .ok .je ∧ decode [0x16] = .ok .jne := by decide

theorem test_decode_logic :
    decode [0x20] = .ok .and ∧ decode [0x21] = .ok .or ∧ decode [0x22] = .ok .xor ∧ decode [0x23] = .ok .not := by decide

theorem test_decode_arithmetic :
    decode [0x24] = .ok .inc ∧ decode [0x25] = .ok .dec ∧ decode [0x26] = .ok .add ∧ decode [0x27] = .ok .sub ∧
    decode [0x28] = .ok .shl ∧ decode [0x29] = .ok .shr ∧ decode [0x2A] = .ok .mul ∧ decode [0x2B] = .ok .div ∧
    decode [0x2C] = .ok .mod ∧ decode [0x2D] = .ok .neg ∧ decode [0x2E] = .ok .abs := by decide

theorem test_decode_misc :
    decode [0xFE] = .ok .debug ∧ decode [0xFF] = .ok .nop ∧ decode [0xC8] = .ok (.undefinedOpcode 0xC8) ∧
    decode [0x0A, 0x04, 0x01] = .ok (.undefinedOpcode 0x0A) := by decide

/-- F1 to F3: what runs out of bytes is refused by name. -/
theorem test_decode_refusals :
    decode [] = .error .noOpcode ∧ decode [0x04] = .error (.truncated 1) ∧ decode [0x05, 0x01] = .error (.truncated 2) ∧
    decode [0x00, 0x01, 0x02] = .error (.truncated 4) := by decide

theorem test_encode_is_little_endian :
    encode (.push32 0x12345678) = [0x00, 0x78, 0x56, 0x34, 0x12] ∧ encode (.push16 0xA000) = [0x05, 0x00, 0xA0] := by
  decide

/-- The opcode table's bit numbering: bit 0 is the least significant bit of the first byte. -/
theorem test_decodeTableWord :
    decodeTableWord 40 0x1234567800 = some (.push32 0x12345678) ∧ decodeTableWord 8 0x26 = some .add ∧
    decodeTableWord 8 0xFF04 = some (.push8 0) := by decide

/-- The word placed after reset is the first instruction the machine runs. -/
theorem test_withFetchWord_runs_first :
    (after (step (State.reset.withFetchWord 16 0x0704))).ip = 2 ∧
    (after (step (State.reset.withFetchWord 16 0x0704))).sp = 255 := by decide

/-! ### The tick -/

/-- S6: the restart and the instruction at index 0 in one tick. -/
theorem test_restart_runs_index_0 :
    (after (step { withProgram [0xFF] with ip := 1, sp := 250 })).ip = 1 ∧
    (after (step { withProgram [0xFF] with ip := 1, sp := 250 })).sp = 256 := by decide

/-- F1 and F3. -/
theorem test_fetch_out_of_range :
    (after (step State.reset)).tickStatus = .error .fetchOutOfRange ∧ (after (step State.reset)).ip = 0 ∧
    (after (step (withProgram [0x00, 0x01, 0x02]))).tickStatus = .error .fetchOutOfRange ∧
    (after (step (withProgram [0x00, 0x01, 0x02]))).ip = 5 := by decide

/-- F5: an immediate that ends exactly at `codeSize` is complete. -/
theorem test_immediate_at_the_end : result (step (withProgram [0x04, 0x07])) = some (.ok, [7]) := by decide +kernel

/-! ### Stack instructions -/

/-- K1. -/
theorem test_push32 : result (exec (.push32 0xFFFFFFFF) (onStack [])) = some (.ok, [-1]) := by decide +kernel

/-- R102: byte 0xFF pushes 255. -/
theorem test_push8 : result (exec (.push8 0xFF) (onStack [])) = some (.ok, [255]) := by decide +kernel

/-- K4. -/
theorem test_push8_full : (after (exec (.push8 1) (atSp 0))).tickStatus = .error .stackOverflow ∧ (after (exec (.push8 1) (atSp 0))).sp = 0 := by decide

/-- K3. -/
theorem test_push16 : result (exec (.push16 0xA000) (onStack [])) = some (.ok, [40960]) := by decide +kernel

/-- K5: the slot stays. -/
theorem test_pop : result (exec .pop (onStack [7, 9])) = some (.ok, [7]) ∧ (after (exec .pop (onStack [7, 9]))).slot 254 = 9 := by decide +kernel

/-- K6. -/
theorem test_pop_empty : result (exec .pop (onStack [])) = some (.error .stackUnderflow, []) := by decide +kernel

/-- K7. -/
theorem test_clone : result (exec .clone (onStack [7])) = some (.ok, [7, 7]) := by decide +kernel

/-- K8, K9. -/
theorem test_clone_errors : result (exec .clone (onStack [])) = some (.error .stackUnderflow, []) ∧ (after (exec .clone (atSp 0))).tickStatus = .error .stackOverflow := by decide +kernel

/-- K10, K11, K12, K16. -/
theorem test_loads : result (exec .loads (onStack [5, 6, 0])) = some (.ok, [5, 6, 6]) ∧ result (exec .loads (onStack [5, 6, 1])) = some (.ok, [5, 6, 5]) ∧
    result (exec .loads (onStack [10, 20, 30, 1])) = some (.ok, [10, 20, 30, 20]) ∧ result (exec .loads (onStack [5, -1])) = some (.ok, [5, -1]) := by decide +kernel

/-- K13, K15, K17. -/
theorem test_loads_errors : result (exec .loads (onStack [5, 6, 2])) = some (.error .stackUnderflow, [5, 6]) ∧
    result (exec .loads (onStack [5, 2147483647])) = some (.error .stackUnderflow, [5]) ∧ result (exec .loads (onStack [5, -256])) = some (.error .stackOverflow, [5]) := by decide +kernel

/-- K19, K20, K21. -/
theorem test_stors : result (exec .stors (onStack [9, 5, 7, 1])) = some (.ok, [7, 5]) ∧ result (exec .stors (onStack [9, 5, 7, 0])) = some (.ok, [9, 7]) ∧
    result (exec .stors (onStack [9, 5, 7, -1])) = some (.ok, [9, 5]) := by decide +kernel

/-- K22, K23. -/
theorem test_stors_errors : result (exec .stors (onStack [7, 0])) = some (.error .stackUnderflow, []) ∧ result (exec .stors (onStack [7])) = some (.error .stackUnderflow, []) := by decide +kernel

/-- K24, K25. -/
theorem test_swap : result (exec .swap (onStack [1, 2])) = some (.ok, [2, 1]) ∧ result (exec .swap (onStack [7])) = some (.error .stackUnderflow, []) := by decide +kernel

/-! ### Memory -/

/-- M10, M16: the second wraps in the heap. -/
theorem test_store : (after (exec .store (onStack [305419896, 256]))).mem = [(0x100, 0x78), (0x101, 0x56), (0x102, 0x34), (0x103, 0x12)] ∧
    (after (exec .store (onStack [-2, 4094]))).mem = [(0, 0xFF), (1, 0xFF), (0xFFE, 0xFE), (0xFFF, 0xFF)] := by decide +kernel

/-- M12, M14, M20. -/
theorem test_store_elsewhere : (after (exec .store (onStack [85, 61440]))).mem = [] ∧ (after (exec .store (onStack [85, 4096]))).mem = [] ∧
    (after (exec .store (onStack [1, -24388]))).mem = [(0xA0BC, 1)] := by decide +kernel

/-- M11 and M3: little-endian, unaligned. -/
theorem test_load : result (exec .load { onStack [0x100] with mem := [(0x100, 0x78), (0x101, 0x56), (0x102, 0x34), (0x103, 0x12)] }) =
      some (.ok, [305419896]) ∧
    memRead (memWrite [] 0 0x04030201) 1 = 0x00040302 := by decide +kernel

/-- M2, M4. -/
theorem test_load_aliases : memRead (memWrite [] 0xA3FF 0xAABBCCDD) 0xA7FF = 0xAABBCCDD ∧
    memRead (memWrite [] 0xA0BC 0xDEADBEEF) 0x0001ACBC = 0xDEADBEEF := by decide +kernel

/-- Writing the value an unlisted cell reads as removes the entry. -/
theorem test_memory_write_removes_zero : Memory.write [(3, 7), (5, 9)] 3 0 = [(5, 9)] ∧ Memory.wf [(3, 7), (5, 9)] = true ∧ Memory.wf [(3, 0)] = false ∧
    Memory.wf [(5, 1), (3, 1)] = false ∧ Memory.wf [(0x1000, 1)] = false := by decide

/-! ### Jumps: the table of part 2.3 of 95_test_vectors.md -/

/-- `IP` after a relational jump to 20 on each row, the fall-through address being 13. -/
def jumpTable (i : Instr) : List Nat :=
  [(5, 3), (3, 5), (3, 3), (-1, 1), (-2147483648, 2147483647)].map fun (p : Word × Word) =>
    (after (exec i { onStack [p.1, p.2, 20] with ip := 13 })).ip.toNat

/-- Part 2.3, column `jg`. -/
theorem test_jg : jumpTable .jg = [20, 13, 13, 13, 13] := by decide +kernel

/-- Part 2.3, column `jge`. -/
theorem test_jge : jumpTable .jge = [20, 13, 20, 13, 13] := by decide +kernel

/-- Part 2.3, column `je`. -/
theorem test_je : jumpTable .je = [13, 13, 20, 13, 13] := by decide +kernel

/-- Part 2.3, column `jne`. -/
theorem test_jne : jumpTable .jne = [20, 20, 13, 20, 20] := by decide +kernel

/-- J1, J2. -/
theorem test_jz : (after (exec .jz { onStack [0, 7] with ip := 5 })).ip = 7 ∧ (after (exec .jz { onStack [5, 7] with ip := 5 })).ip = 5 ∧
    (after (exec .jz { onStack [5, 7] with ip := 5 })).sp = 256 := by decide +kernel

/-- J3, J4. -/
theorem test_jnz : (after (exec .jnz { onStack [5, 7] with ip := 5 })).ip = 7 ∧ (after (exec .jnz { onStack [0, 7] with ip := 5 })).ip = 5 := by decide +kernel

/-- J6, J9. -/
theorem test_jmp : (after (exec .jmp (onStack [-1]))).ip = 0xFFFFFFFF ∧ result (exec .jmp (onStack [])) = some (.error .stackUnderflow, []) := by decide +kernel

/-- J10: the target is consumed, no jump is made. -/
theorem test_jz_underflow : result (exec .jz (onStack [1])) = some (.error .stackUnderflow, []) ∧ (after (exec .jz (onStack [1]))).ip = 0 := by decide +kernel

/-- J11. -/
theorem test_jg_underflow : result (exec .jg (onStack [1, 2])) = some (.error .stackUnderflow, []) := by decide +kernel

/-! ### Arithmetic and logic: part 2.4 of 95_test_vectors.md -/

/-- The rows of `and`. -/
theorem test_and : result (exec .and (onStack [9, 0x0FF0, 0x00FF])) = some (.ok, [9, 240]) ∧
    aluAnd (-1) 0x1234 = 4660 := by decide +kernel

/-- The rows of `or`. -/
theorem test_or : result (exec .or (onStack [9, 0x0F00, 0x00F0])) = some (.ok, [9, 4080]) := by decide +kernel

/-- The rows of `xor`. -/
theorem test_xor : result (exec .xor (onStack [9, 0x0FF0, 0x00FF])) = some (.ok, [9, 3855]) := by decide +kernel

/-- The rows of `add`. -/
theorem test_add : result (exec .add (onStack [9, 2147483647, 1])) = some (.ok, [9, 0x80000000]) ∧
    aluAdd (-1) 1 = 0 := by decide +kernel

/-- The rows of `sub`. -/
theorem test_sub : result (exec .sub (onStack [9, 10, 3])) = some (.ok, [9, 7]) ∧
    aluSub (-2147483648) 1 = 2147483647 ∧ aluSub 0 (-2147483648) = 0x80000000 := by decide +kernel

/-- The rows of `mul`. -/
theorem test_mul : result (exec .mul (onStack [9, 7, 6])) = some (.ok, [9, 42]) ∧
    aluMul (-3) 5 = -15 ∧ aluMul 65536 65536 = 0 ∧ aluMul (-1) (-2147483648) = 0x80000000 := by decide +kernel

/-- The rows of `div`. -/
theorem test_div : result (exec .div (onStack [9, 10, 3])) = some (.ok, [9, 3]) ∧
    aluDiv (-7) 2 = -3 ∧ aluDiv 7 (-2) = -3 ∧ aluDiv (-7) (-2) = 3 ∧ aluDiv (-2147483648) (-1) = 0x80000000 := by decide +kernel

/-- The rows of `mod`. -/
theorem test_mod : result (exec .mod (onStack [9, 10, 3])) = some (.ok, [9, 1]) ∧
    aluMod (-7) 2 = -1 ∧ aluMod 7 (-2) = 1 ∧ aluMod (-7) (-2) = -1 ∧ aluMod (-2147483648) (-1) = 0 := by decide +kernel

/-- The rows of `shl`. -/
theorem test_shl : result (exec .shl (onStack [9, 1, 4])) = some (.ok, [9, 16]) ∧
    aluShl 3 31 = 0x80000000 ∧ aluShl 1 32 = 1 ∧ aluShl 1 33 = 2 ∧ aluShl 1 (-1) = 0x80000000 := by decide +kernel

/-- The rows of `shr`. -/
theorem test_shr : result (exec .shr (onStack [9, -8, 1])) = some (.ok, [9, -4]) ∧
    aluShr (-7) 1 = -4 ∧ aluShr 2147483647 30 = 1 ∧ aluShr 5 33 = 2 ∧ aluShr (-1) 32 = -1 := by decide +kernel

/-- The rows of `not`. -/
theorem test_not : result (exec .not (onStack [9, 0])) = some (.ok, [9, -1]) ∧
    aluNot 5 = -6 := by decide +kernel

/-- The rows of `inc`. -/
theorem test_inc : result (exec .inc (onStack [9, 41])) = some (.ok, [9, 42]) ∧
    aluInc 2147483647 = 0x80000000 := by decide +kernel

/-- The rows of `dec`. -/
theorem test_dec : result (exec .dec (onStack [9, 3])) = some (.ok, [9, 2]) ∧
    aluDec (-2147483648) = 2147483647 := by decide +kernel

/-- The rows of `neg`. -/
theorem test_neg : result (exec .neg (onStack [9, 5])) = some (.ok, [9, -5]) ∧
    aluNeg (-2147483648) = 0x80000000 := by decide +kernel

/-- The rows of `abs`. -/
theorem test_abs : result (exec .abs (onStack [9, -5])) = some (.ok, [9, 5]) ∧
    aluAbs 5 = 5 ∧ aluAbs (-2147483648) = 0x80000000 := by decide +kernel

/-- A1, A3, A4. -/
theorem test_division_errors : result (exec .div (onStack [5, 0])) = some (.error .arithmeticError, []) ∧ result (exec .mod (onStack [5, 0])) = some (.error .arithmeticError, []) ∧
    result (exec .div (onStack [0])) = some (.error .stackUnderflow, []) := by decide +kernel

/-- A5, A6. -/
theorem test_pop_order_errors : result (exec .add (onStack [5])) = some (.error .stackUnderflow, []) ∧ result (exec .not (onStack [])) = some (.error .stackUnderflow, []) := by decide +kernel

/-! ### debug, nop, undefined opcodes, the host -/

/-- X1, S7, and R181: one byte each. -/
theorem test_no_ops : (after (step (withProgram [0xFE, 0x04, 0x01]))).ip = 1 ∧ (after (step (withProgram [0xC8, 0xFF]))).ip = 1 ∧
    (after (step (withProgram [0xFF]))).tickStatus = .ok := by decide

/-- H3: Clear zeroes memory; before it the byte is there. -/
theorem test_clear_and_observe : observeGfx { State.reset with mem := [(0xA3FF, 7)] } 1023 = 7 ∧
    observeGfx (hostClear { State.reset with mem := [(0xA3FF, 7)] }) 1023 = 0 ∧
    observeHeap { State.reset with mem := [(0xFFF, 7)] } 4095 = 7 := by decide

/-- The numbers of R200's table. -/
theorem test_status_codes :
    statusCode .ok = 0 ∧ statusCode (.error .stackOverflow) = 1 ∧ statusCode (.error .stackUnderflow) = 2 ∧
    statusCode (.error .arithmeticError) = 3 ∧ statusCode (.error .fetchOutOfRange) = 4 := by decide

/-- The model's choices at reset (log 1, log 2). -/
theorem test_reset_choices : State.reset.stack.val.all (· == 0) = true ∧ State.reset.tickStatus = .ok := by decide +kernel

/-! ### Witnesses: the hypotheses of each statement are met, clause by clause, at the ends of their ranges -/

theorem witness_DecodeOfEncodeIsTheInstruction :
    (Instr.push32 0xFFFFFFFF).wf = true ∧ (Instr.undefinedOpcode 10).wf = true ∧ (Instr.undefinedOpcode 253).wf = true := by decide

theorem witness_DecodedBytesAreTheEncoding :
    decode [0x00, 0x01, 0x02, 0x03, 0x04, 0x05] = .ok (.push32 0x04030201) := by decide

theorem witness_StepRunsTheDecodedInstruction :
    (withProgram [0xFF, 0x04, 0x07]).ip.toNat < (withProgram [0xFF, 0x04, 0x07]).codeSize ∧
    decode ((withProgram [0xFF, 0x04, 0x07]).program.drop (withProgram [0xFF, 0x04, 0x07]).ip.toNat) = .ok .nop := by decide

theorem witness_RestartIsPartOfTheSameTick :
    ({ withProgram [0xFF] with ip := 1 } : State).codeSize ≤ ({ withProgram [0xFF] with ip := 1 } : State).ip.toNat := by decide

theorem witness_FetchPastTheEndIsReported :
    State.reset.codeSize = 0 ∧
    fetch8 (withProgram [0x00, 1, 2, 3]) 0 = some 0x00 ∧ (withProgram [0x00, 1, 2, 3]).codeSize < 0 + 1 + 4 ∧
    fetch8 (withProgram [0x04]) 0 = some 0x04 ∧ (withProgram [0x04]).codeSize < 0 + 1 + 1 ∧
    fetch8 (withProgram [0x05, 1]) 0 = some 0x05 ∧ (withProgram [0x05, 1]).codeSize < 0 + 1 + 2 ∧
    (withProgram [0x00, 1, 2, 3]).codeSize ≤ 2 ^ 31 - 1 := by decide

theorem witness_NonJumpsAdvanceByTheirLength :
    (withProgram [0x04, 0x07]).codeSize ≤ 2 ^ 31 - 1 ∧ (withProgram [0x04, 0x07]).ip.toNat < (withProgram [0x04, 0x07]).codeSize ∧
    decode ((withProgram [0x04, 0x07]).program.drop (withProgram [0x04, 0x07]).ip.toNat) = .ok (.push8 7) ∧
    isJump (.push8 7) = false ∧ step (withProgram [0x04, 0x07]) = .next (after (step (withProgram [0x04, 0x07]))) :=
  ⟨by decide, by decide, by decide, by decide, rfl⟩

theorem witness_PushWritesBelowTheTop :
    (atSp 0).sp = 0 ∧ 1 ≤ (atSp 1).sp.toNat ∧ (atSp 256).sp.toNat ≤ 256 ∧ 1 ≤ (atSp 256).sp.toNat := by decide

theorem witness_PopReturnsTheTopAndKeepsTheSlot :
    (atSp 256).sp = 256 ∧ (atSp 255).sp.toNat ≤ 255 ∧ (atSp 0).sp.toNat ≤ 255 := by decide

theorem witness_IndexedAccessIsChecked :
    (-1 : Int) < 0 ∧ (256 : Int) ≤ 256 ∧ (0 : Int) ≤ 0 ∧ (0 : Int) ≤ 255 ∧ (255 : Int) ≤ 255 := by decide

theorem witness_Push32PushesItsImmediate :
    ([1, 2, 3] : List Byte).length < 4 ∧ (atSp 0).sp = 0 ∧ 1 ≤ (atSp 1).sp.toNat ∧ (atSp 256).sp.toNat ≤ 256 ∧ 1 ≤ (atSp 256).sp.toNat ∧
    ([] : List Byte).length < 4 ∧ fetch8 (withProgram [0x00, 1, 2, 3]) (withProgram [0x00, 1, 2, 3]).ip.toNat = some 0x00 ∧
    (withProgram [0x00, 1, 2, 3]).codeSize < (withProgram [0x00, 1, 2, 3]).ip.toNat + 1 + 4 ∧
    fetch8 (withProgram [0x00, 1, 2, 3, 4]) (withProgram [0x00, 1, 2, 3, 4]).ip.toNat = some 0x00 ∧
    (withProgram [0x00, 1, 2, 3, 4]).ip.toNat + 1 + 4 ≤ (withProgram [0x00, 1, 2, 3, 4]).codeSize := by decide

theorem witness_Push8PushesItsImmediateZeroExtended :
    (atSp 0).sp = 0 ∧ 1 ≤ (atSp 1).sp.toNat ∧ (atSp 256).sp.toNat ≤ 256 ∧ 1 ≤ (atSp 256).sp.toNat ∧
    ([] : List Byte).length < 1 ∧ fetch8 (withProgram [0x04]) (withProgram [0x04]).ip.toNat = some 0x04 ∧
    (withProgram [0x04]).codeSize < (withProgram [0x04]).ip.toNat + 1 + 1 ∧
    fetch8 (withProgram [0x04, 1]) (withProgram [0x04, 1]).ip.toNat = some 0x04 ∧
    (withProgram [0x04, 1]).ip.toNat + 1 + 1 ≤ (withProgram [0x04, 1]).codeSize := by decide

theorem witness_Push16PushesItsImmediateZeroExtended :
    ([1] : List Byte).length < 2 ∧ (atSp 0).sp = 0 ∧ 1 ≤ (atSp 1).sp.toNat ∧ (atSp 256).sp.toNat ≤ 256 ∧ 1 ≤ (atSp 256).sp.toNat ∧
    ([] : List Byte).length < 2 ∧ fetch8 (withProgram [0x05, 1]) (withProgram [0x05, 1]).ip.toNat = some 0x05 ∧
    (withProgram [0x05, 1]).codeSize < (withProgram [0x05, 1]).ip.toNat + 1 + 2 ∧
    fetch8 (withProgram [0x05, 1, 2]) (withProgram [0x05, 1, 2]).ip.toNat = some 0x05 ∧
    (withProgram [0x05, 1, 2]).ip.toNat + 1 + 2 ≤ (withProgram [0x05, 1, 2]).codeSize := by decide

theorem witness_PopDiscardsTheTop :
    (atSp 256).sp = 256 ∧ (atSp 255).sp.toNat ≤ 255 ∧ (atSp 0).sp.toNat ≤ 255 := by decide

theorem witness_LoadPushesTheWordAtTheAddress :
    (atSp 256).sp = 256 ∧ (atSp 255).sp.toNat ≤ 255 ∧ (atSp 0).sp.toNat ≤ 255 := by decide

theorem witness_JmpGoesToTheTarget :
    (atSp 256).sp = 256 ∧ (atSp 255).sp.toNat ≤ 255 ∧ (atSp 0).sp.toNat ≤ 255 := by decide

theorem witness_NotInvertsEveryBit :
    (atSp 256).sp = 256 ∧ (atSp 255).sp.toNat ≤ 255 ∧ (atSp 0).sp.toNat ≤ 255 := by decide

theorem witness_IncAndDecWrap :
    (atSp 256).sp = 256 ∧ (atSp 255).sp.toNat ≤ 255 ∧ (atSp 0).sp.toNat ≤ 255 := by decide

theorem witness_NegWraps :
    (atSp 256).sp = 256 ∧ (atSp 255).sp.toNat ≤ 255 ∧ (atSp 0).sp.toNat ≤ 255 := by decide

theorem witness_AbsWraps :
    (atSp 256).sp = 256 ∧ (atSp 255).sp.toNat ≤ 255 ∧ (atSp 0).sp.toNat ≤ 255 := by decide

theorem witness_CloneDuplicatesTheTop :
    (atSp 256).sp = 256 ∧ (atSp 0).sp = 0 ∧ 1 ≤ (atSp 1).sp.toNat ∧ (atSp 255).sp.toNat ≤ 255 := by decide

theorem witness_SwapExchangesTheTopTwo :
    (atSp 256).sp = 256 ∧ (atSp 255).sp = 255 ∧ (atSp 254).sp.toNat ≤ 254 ∧ (atSp 0).sp.toNat ≤ 254 := by decide

theorem witness_BitwiseBinaryResults :
    (atSp 256).sp = 256 ∧ (atSp 255).sp = 255 ∧ (atSp 254).sp.toNat ≤ 254 ∧ (atSp 0).sp.toNat ≤ 254 := by decide

theorem witness_AddAndSubWrap :
    (atSp 256).sp = 256 ∧ (atSp 255).sp = 255 ∧ (atSp 254).sp.toNat ≤ 254 ∧ (atSp 0).sp.toNat ≤ 254 := by decide

theorem witness_ShiftsUseTheLowFiveCountBits :
    (atSp 256).sp = 256 ∧ (atSp 255).sp = 255 ∧ (atSp 254).sp.toNat ≤ 254 ∧ (atSp 0).sp.toNat ≤ 254 := by decide

theorem witness_MulKeepsTheLowWord :
    (atSp 256).sp = 256 ∧ (atSp 255).sp = 255 ∧ (atSp 254).sp.toNat ≤ 254 ∧ (atSp 0).sp.toNat ≤ 254 := by decide

theorem witness_LoadsReadsTheSlotAtItsOffset :
    (atSp 256).sp = 256 ∧ (onStack [-257]).sp.toNat ≤ 255 ∧
    ((onStack [-257]).sp.toNat : Int) + 1 + ((onStack [-257]).nth 0).toInt < 0 ∧
    256 ≤ ((onStack [0]).sp.toNat : Int) + 1 + ((onStack [0]).nth 0).toInt ∧
    (0 : Int) = ((onStack [-256]).sp.toNat : Int) + 1 + ((onStack [-256]).nth 0).toInt ∧
    (255 : Int) = ((onStack [-1]).sp.toNat : Int) + 1 + ((onStack [-1]).nth 0).toInt := by decide +kernel

theorem witness_StorsWritesTheSlotAtItsOffset :
    (atSp 256).sp = 256 ∧ (atSp 255).sp = 255 ∧ (onStack [7, -257]).sp.toNat ≤ 254 ∧
    ((onStack [7, -257]).sp.toNat : Int) + 2 + ((onStack [7, -257]).nth 0).toInt < 0 ∧
    256 ≤ ((onStack [7, 0]).sp.toNat : Int) + 2 + ((onStack [7, 0]).nth 0).toInt ∧
    (0 : Int) = ((onStack [7, -256]).sp.toNat : Int) + 2 + ((onStack [7, -256]).nth 0).toInt ∧
    (255 : Int) = ((onStack [7, -1]).sp.toNat : Int) + 2 + ((onStack [7, -1]).nth 0).toInt := by decide +kernel

theorem witness_MemReadGathersFourBytes :
    (0x0FFF : Word).extractLsb' 12 4 = 0x0 ∧ (0xAFFF : Word).extractLsb' 12 4 = 0xA ∧
    (0x1000 : Word).extractLsb' 12 4 ≠ 0x0 ∧ (0x1000 : Word).extractLsb' 12 4 ≠ 0xA ∧
    (0xFFFF : Word).extractLsb' 12 4 ≠ 0x0 ∧ (0xFFFF : Word).extractLsb' 12 4 ≠ 0xA := by decide

theorem witness_MemWriteSpreadsFourBytes :
    (0x0FFF : Word).extractLsb' 12 4 = 0x0 ∧ (0xAFFF : Word).extractLsb' 12 4 = 0xA ∧
    (0x1000 : Word).extractLsb' 12 4 ≠ 0x0 ∧ (0x1000 : Word).extractLsb' 12 4 ≠ 0xA ∧
    (0xFFFF : Word).extractLsb' 12 4 ≠ 0x0 ∧ (0xFFFF : Word).extractLsb' 12 4 ≠ 0xA ∧
    ∃ s t : State, t = { s with mem := memWrite s.mem 0x0FFF 0x11223344 } :=
  ⟨by decide, by decide, by decide, by decide, by decide, by decide, State.reset, _, rfl⟩

theorem witness_StoredWordLoadsBack :
    (0x0FFF : Word).extractLsb' 12 4 = 0x0 ∧ (0xAFFF : Word).extractLsb' 12 4 = 0xA ∧
    (0x1000 : Word).extractLsb' 12 4 ≠ 0x0 ∧ (0x1000 : Word).extractLsb' 12 4 ≠ 0xA ∧
    (0xFFFF : Word).extractLsb' 12 4 ≠ 0x0 ∧ (0xFFFF : Word).extractLsb' 12 4 ≠ 0xA := by decide

theorem witness_IgnoredAddressBitsDoNotMatter :
    (0x0001A0BC : Word).extractLsb' 0 16 = (0xA0BC : Word).extractLsb' 0 16 ∧
    (0xA3FF : Word).extractLsb' 12 4 = 0xA ∧ (0xAFFF : Word).extractLsb' 12 4 = 0xA ∧
    (0xA3FF : Word).extractLsb' 0 10 = (0xAFFF : Word).extractLsb' 0 10 := by decide

theorem witness_StoreWritesTheWordAtTheAddress :
    (atSp 256).sp = 256 ∧ (atSp 255).sp = 255 ∧ (atSp 254).sp.toNat ≤ 254 ∧ (atSp 0).sp.toNat ≤ 254 ∧
    cellOf 0x0FFE 3 = some 1 ∧ cellOf 0xA000 0 = some 0xA000 ∧ (∀ k < 4, cellOf 0x0FFE k ≠ some 2) ∧
    ∀ k < 4, cellOf 0xF000 k ≠ some 0 := by decide

theorem witness_UnmappedAccessesAreHarmless :
    ((onStack [5, 0x1000]).nth 0).extractLsb' 12 4 ≠ 0x0 ∧ ((onStack [5, 0x1000]).nth 0).extractLsb' 12 4 ≠ 0xA ∧
    ((onStack [5, 0xF000]).nth 0).extractLsb' 12 4 ≠ 0x0 ∧ ((onStack [5, 0xF000]).nth 0).extractLsb' 12 4 ≠ 0xA ∧
    (onStack [5, 0xF000]).sp.toNat ≤ 254 ∧ (onStack [0xF000]).sp.toNat ≤ 255 ∧
    ((onStack [0xF000]).nth 0).extractLsb' 12 4 ≠ 0x0 ∧ ((onStack [0xF000]).nth 0).extractLsb' 12 4 ≠ 0xA := by decide +kernel

theorem witness_ZeroTestJumps :
    (atSp 256).sp = 256 ∧ (atSp 255).sp = 255 ∧ (atSp 254).sp.toNat ≤ 254 ∧ (atSp 0).sp.toNat ≤ 254 ∧
    (onStack [0, 7]).nth 1 = 0x00000000 ∧ ¬ (onStack [1, 7]).nth 1 = 0x00000000 ∧ (onStack [1, 7]).sp.toNat ≤ 254 := by decide +kernel

theorem witness_OrderedJumpsCompareSigned :
    (atSp 256).sp = 256 ∧ (atSp 255).sp = 255 ∧ (atSp 254).sp = 254 ∧ (atSp 253).sp.toNat ≤ 253 ∧ (atSp 0).sp.toNat ≤ 253 ∧
    (onStack [5, 3, 7]).sp.toNat ≤ 253 ∧ ((onStack [5, 3, 7]).nth 2).toInt > ((onStack [5, 3, 7]).nth 1).toInt ∧
    ¬ ((onStack [3, 5, 7]).nth 2).toInt ≥ ((onStack [3, 5, 7]).nth 1).toInt := by decide +kernel

theorem witness_EqualityJumpsCompareAllBits :
    (atSp 256).sp = 256 ∧ (atSp 255).sp = 255 ∧ (atSp 254).sp = 254 ∧ (atSp 253).sp.toNat ≤ 253 ∧ (atSp 0).sp.toNat ≤ 253 ∧
    (onStack [5, 3, 7]).sp.toNat ≤ 253 ∧ (onStack [5, 5, 7]).nth 2 = (onStack [5, 5, 7]).nth 1 ∧
    (onStack [5, 3, 7]).nth 2 ≠ (onStack [5, 3, 7]).nth 1 := by decide +kernel

theorem witness_JumpPastTheEndRestarts :
    (onStack [-1]).sp.toNat ≤ 255 ∧ (onStack [-1]).codeSize ≤ 2 ^ 31 - 1 ∧ ((onStack [-1]).nth 0).toInt < 0 ∧
    ({ onStack [1] with program := [0xFF] } : State).codeSize ≤ (({ onStack [1] with program := [0xFF] } : State).nth 0).toNat := by decide +kernel

theorem witness_DivTruncates :
    (atSp 256).sp = 256 ∧ (atSp 255).sp = 255 ∧ (atSp 254).sp.toNat ≤ 254 ∧ (atSp 0).sp.toNat ≤ 254 ∧
    (onStack [5, 0]).sp.toNat ≤ 254 ∧ (onStack [5, 0]).nth 0 = 0 ∧ (onStack [5, 2]).sp.toNat ≤ 254 ∧ (onStack [5, 2]).nth 0 ≠ 0 := by decide +kernel

theorem witness_ModIsTheTruncatingRemainder :
    (atSp 256).sp = 256 ∧ (atSp 255).sp = 255 ∧ (atSp 254).sp.toNat ≤ 254 ∧ (atSp 0).sp.toNat ≤ 254 ∧
    (onStack [5, 0]).sp.toNat ≤ 254 ∧ (onStack [5, 0]).nth 0 = 0 ∧ (onStack [5, 2]).sp.toNat ≤ 254 ∧ (onStack [5, 2]).nth 0 ≠ 0 := by decide +kernel

theorem witness_QuotientAndRemainderFitTogether :
    (0xFFFFFFFF : Word) ≠ 0 ∧ ((0x80000000 : Word) = 0x80000000 ∧ (0xFFFFFFFF : Word) = 0xFFFFFFFF) ∧
    ¬ ((0x80000000 : Word) = 0x80000000 ∧ (1 : Word) = 0xFFFFFFFF) := by decide

theorem witness_ArithmeticIsTwosComplement :
    (0xFFFFFFFF : Word) ≠ 0 := by decide

theorem witness_NoOpsChangeNothing :
    10 ≤ (10 : Byte).toNat ∧ (15 : Byte).toNat ≤ 15 ∧ 23 ≤ (23 : Byte).toNat ∧ (31 : Byte).toNat ≤ 31 ∧ 47 ≤ (47 : Byte).toNat ∧
    (253 : Byte).toNat ≤ 253 ∧ fetch8 (withProgram [0x0A]) (withProgram [0x0A]).ip.toNat = some 0x0A ∧
    fetch8 (withProgram [0xFF]) (withProgram [0xFF]).ip.toNat = some 0xFF := by decide

theorem witness_OverflowComesFromPushesAndIndexes :
    (atSp 0).sp = 0 ∧ (onStack [-257]).sp.toNat ≤ 255 ∧ ((onStack [-257]).sp.toNat : Int) + 1 + ((onStack [-257]).nth 0).toInt < 0 ∧
    (onStack [7, -257]).sp.toNat ≤ 254 ∧ ((onStack [7, -257]).sp.toNat : Int) + 2 + ((onStack [7, -257]).nth 0).toInt < 0 := by
  decide +kernel

theorem witness_UnderflowComesFromPopsAndIndexes :
    (atSp 256).sp.toNat ≤ 256 ∧ 256 < (atSp 256).sp.toNat + valuesNeeded .clone ∧ (atSp 254).sp.toNat ≤ 256 ∧
    256 < (atSp 254).sp.toNat + valuesNeeded .jg ∧ (atSp 0).sp.toNat ≤ 256 := by decide

theorem witness_ArithmeticErrorIsDivisionByZero :
    (onStack [5, 0]).sp.toNat ≤ 254 ∧ (onStack [5, 0]).nth 0 = 0x00000000 ∧
    (after (exec .div (onStack [5, 0]))).tickStatus = .error .arithmeticError ∧
    exec .div (onStack [5, 0]) = .next (after (exec .div (onStack [5, 0]))) :=
  ⟨by decide +kernel, by decide +kernel, by decide +kernel, rfl⟩

theorem witness_LoadInstallsTheProgram :
    (List.replicate Config.codeSizeMax (0xFF : Byte)).length ≤ Config.codeSizeMax ∧
    Config.codeSizeMax < (List.replicate (Config.codeSizeMax + 1) (0xFF : Byte)).length := by simp

theorem witness_ClearThenLoadRestoresAllButTheStack :
    (List.replicate Config.codeSizeMax (0xFF : Byte)).length ≤ Config.codeSizeMax := by simp

theorem witness_EveryStepKeepsTheInvariant :
    ({ onStack [5, 0xA000] with program := [0x03], mem := [(0xA000, 9)] } : State).Inv ∧
    step { onStack [5, 0xA000] with program := [0x03], mem := [(0xA000, 9)] } =
      .next (after (step { onStack [5, 0xA000] with program := [0x03], mem := [(0xA000, 9)] })) :=
  ⟨⟨by decide, by decide, by decide⟩, rfl⟩

theorem witness_EveryHostRunKeepsTheInvariant :
    ∃ t, hostRun [.load [], .tick, .clear, .tick] (powerOn State.reset.stack) = .next t :=
  ⟨_, by simp only [hostRun, hostStep, hostLoad, List.length_nil, Nat.zero_le, if_true]; rfl⟩

theorem witness_NoTickWritesTheProgram :
    step (withProgram [0x04, 0x07]) = .next (after (step (withProgram [0x04, 0x07]))) := rfl

theorem witness_OnlyStoreChangesMemory :
    step { onStack [5, 0x10] with program := [0x03] } = .next (after (step { onStack [5, 0x10] with program := [0x03] })) ∧
    (after (step { onStack [5, 0x10] with program := [0x03] })).mem ≠ ({ onStack [5, 0x10] with program := [0x03] } : State).mem ∧
    hostLoad [] State.reset = .next (after (hostLoad [] State.reset)) :=
  ⟨rfl, by decide +kernel, by simp [hostLoad, after]⟩

theorem witness_OnlyLoadLearnsMemory :
    fetch8 (restart (withProgram [0x04, 0x07])) (restart (withProgram [0x04, 0x07])).ip.toNat ≠ some 0x02 ∧
    step (withProgram [0x04, 0x07]) = .next (after (step (withProgram [0x04, 0x07]))) := ⟨by decide, rfl⟩

end Sys2Proof.Tests
end

section
/-! PROOFS. What a decoded instruction says of the bytes it was read from. -/

namespace Sys2Proof

theorem opcodeOf_decodePlain : ∀ op : Byte, opcodeOf (decodePlain op) = op := by decide

theorem instrLength_decodePlain : ∀ op : Byte, instrLength (decodePlain op) = 1 := by decide

theorem decodePlain_wf :
    ∀ op : Byte, op.toNat ≠ 0 → op.toNat ≠ 4 → op.toNat ≠ 5 → (decodePlain op).wf = true := by decide

/-- The four shapes of `decode_cases` in which there is an instruction. -/
theorem decode_ok_cases {bytes : List Byte} {i : Instr} (h : decode bytes = .ok i) :
    (∃ b1 b2 b3 b4 rest, bytes = 0x00 :: b1 :: b2 :: b3 :: b4 :: rest ∧ i = .push32 (imm32 b1 b2 b3 b4)) ∨
    (∃ b1 rest, bytes = 0x04 :: b1 :: rest ∧ i = .push8 b1) ∨
    (∃ b1 b2 rest, bytes = 0x05 :: b1 :: b2 :: rest ∧ i = .push16 (imm16 b1 b2)) ∨
    (∃ op rest, bytes = op :: rest ∧ op.toNat ≠ 0 ∧ op.toNat ≠ 4 ∧ op.toNat ≠ 5 ∧ i = decodePlain op) := by
  rcases decode_cases bytes with ⟨_, e⟩ | ⟨_, _, _, _, _, _, e⟩ | ⟨b1, b2, b3, b4, rest, hb, e⟩ | ⟨b1, rest, hb, e⟩ |
    ⟨b1, b2, rest, hb, e⟩ | ⟨op, rest, hb, n0, n4, n5, e⟩ <;> rw [h] at e <;> cases e
  · exact .inl ⟨b1, b2, b3, b4, rest, hb, rfl⟩
  · exact .inr (.inl ⟨b1, rest, hb, rfl⟩)
  · exact .inr (.inr (.inl ⟨b1, b2, rest, hb, rfl⟩))
  · exact .inr (.inr (.inr ⟨op, rest, hb, n0, n4, n5, rfl⟩))

/-- What decodes is well formed (30_encoding.md R85). -/
theorem decode_wf {bytes : List Byte} {i : Instr} (h : decode bytes = .ok i) : i.wf = true := by
  rcases decode_ok_cases h with ⟨_, _, _, _, _, _, rfl⟩ | ⟨_, _, _, rfl⟩ | ⟨_, _, _, _, rfl⟩ |
    ⟨op, _, _, n0, n4, n5, rfl⟩
  · rfl
  · rfl
  · rfl
  · exact decodePlain_wf op n0 n4 n5

/-- The first byte is the opcode (R80). -/
theorem decode_opcode {bytes : List Byte} {i : Instr} (h : decode bytes = .ok i) :
    bytes[0]? = some (opcodeOf i) := by
  rcases decode_ok_cases h with ⟨_, _, _, _, _, rfl, rfl⟩ | ⟨_, _, rfl, rfl⟩ | ⟨_, _, _, rfl, rfl⟩ |
    ⟨op, _, rfl, _, _, _, rfl⟩
  · rfl
  · rfl
  · rfl
  · rw [opcodeOf_decodePlain]; rfl

/-- All bytes of the instruction are there (R81, R85). -/
theorem decode_length_le {bytes : List Byte} {i : Instr} (h : decode bytes = .ok i) :
    instrLength i ≤ bytes.length := by
  rcases decode_ok_cases h with ⟨_, _, _, _, _, rfl, rfl⟩ | ⟨_, _, rfl, rfl⟩ | ⟨_, _, _, rfl, rfl⟩ |
    ⟨op, _, rfl, _, _, _, rfl⟩
  · simp [instrLength]
  · simp [instrLength]
  · simp [instrLength]
  · simp [instrLength_decodePlain]

end Sys2Proof
end

section
/-! PROOFS. The restart, and one equation of the tick per answer of the decoder (10_state.md R32, R33). -/

namespace Sys2Proof.Machine

theorem restart_of_le {s : State} (h : s.codeSize ≤ s.ip.toNat) : restart s = { s with ip := 0, sp := 256 } := if_pos h

theorem restart_of_lt {s : State} (h : s.ip.toNat < s.codeSize) : restart s = s := if_neg (Nat.not_le.2 h)

/-- Restarting twice is restarting once, also where `codeSize` is 0 and the second restart happens again. -/
theorem restart_restart (s : State) : restart (restart s) = restart s := by
  rcases restart_cases s with ⟨_, h⟩ | ⟨_, h⟩
  · rw [h]
    rcases restart_cases { s with ip := 0, sp := 256 } with ⟨_, h'⟩ | ⟨_, h'⟩ <;> rw [h']
  · rw [h, h]

/-- The restart is part of the tick, so a tick from the restarted state is the same tick (R33). -/
theorem step_restart (s : State) : step (restart s) = step s := by
  simp only [step, fetchInstr, restart_restart]

/-- The restart looks at no memory and writes none. -/
theorem restart_withMem (s : State) (m : Memory) : restart { s with mem := m } = { restart s with mem := m } := by
  rcases restart_cases s with ⟨h, e⟩ | ⟨h, e⟩ <;> rw [e]
  · exact restart_of_le h
  · exact restart_of_lt h

theorem step_of_decode {s : State} {i : Instr} (h : decode (bytesAtIp (restart s)) = .ok i) :
    step s = exec i (advance (instrLength i) (restart s)) := by
  simp only [step, fetchInstr, fetchDecode, h]

theorem step_of_noOpcode {s : State} (h : decode (bytesAtIp (restart s)) = .error .noOpcode) :
    step s = .next (raiseError .fetchOutOfRange (restart s)) := by
  simp only [step, fetchInstr, fetchDecode, h]

theorem step_of_truncated {s : State} {w : Nat} (h : decode (bytesAtIp (restart s)) = .error (.truncated w)) :
    step s = .next (raiseError .fetchOutOfRange (advance (1 + w) (restart s))) := by
  simp only [step, fetchInstr, fetchDecode, h]

/-- Where the bytes at `IP` decode, `Fetch8(IP)` is the instruction's opcode. -/
theorem fetch8_of_decode {s : State} {i : Instr} (h : decode (bytesAtIp s) = .ok i) :
    fetch8 s s.ip.toNat = some (opcodeOf i) := by
  rw [← decode_opcode h, bytesAtIp_get, Nat.add_zero]

/-- An instruction that decodes ends at or before `codeSize`. -/
theorem ip_add_instrLength_le {s : State} {i : Instr} (hip : s.ip.toNat < s.codeSize)
    (h : decode (bytesAtIp s) = .ok i) : s.ip.toNat + instrLength i ≤ s.codeSize := by
  have hlen := decode_length_le h
  simp only [bytesAtIp, List.length_drop] at hlen
  simp only [State.codeSize] at hip ⊢
  omega

end Sys2Proof.Machine
end

section
/-! PROOFS. The checked indexed accesses by the range of the index (10_state.md R26). -/

namespace Sys2Proof.Machine

section
variable (i : Int) (v : Word) (s : State)

theorem stackRead_below (h : i < 0) : stackRead i s = .raised .stackOverflow s := if_pos h

theorem stackRead_above (h : 256 ≤ i) : stackRead i s = .raised .stackUnderflow s := by
  rw [stackRead, if_neg (by omega), if_pos h]

theorem stackRead_inside (h : 0 ≤ i) (h' : i ≤ 255) : stackRead i s = .done (s.slot i.toNat) s := by
  rw [stackRead, if_neg (by omega), if_neg (by omega)]

theorem stackWrite_below (h : i < 0) : stackWrite i v s = .raised .stackOverflow s := if_pos h

theorem stackWrite_above (h : 256 ≤ i) : stackWrite i v s = .raised .stackUnderflow s := by
  rw [stackWrite, if_neg (by omega), if_pos h]

theorem stackWrite_inside (h : 0 ≤ i) (h' : i ≤ 255) : stackWrite i v s = .done () (s.setSlot i.toNat v) := by
  rw [stackWrite, if_neg (by omega), if_neg (by omega)]

end

end Sys2Proof.Machine
end

section
/-! PROOFS. Every instruction is a sequence of micro-operations. `BuiltFor i op` says so once for all 35 instructions; what
holds of each micro-operation and survives sequencing then holds of every instruction by one induction. -/

namespace Sys2Proof.Machine

/-- `op` is made of the micro-operations that instruction `i` may use: the stack's are free to all, `IP` is written by jumps
only, memory is written by `store` only and read by `load` only. `exec_builtFor` ties it to `exec`. -/
inductive BuiltFor (i : Instr) : {α : Type} → (State → Micro α) → Prop where
  | push (v : Word) : BuiltFor i (push v)
  | pop : BuiltFor i pop
  | stackRead (o : Int) : BuiltFor i fun s => stackRead (indexFromSp s o) s
  | stackWrite (o : Int) (v : Word) : BuiltFor i fun s => stackWrite (indexFromSp s o) v s
  | jumpTo (hi : isJump i = true) (target : Word) : BuiltFor i (jumpTo target)
  | storeWord (hi : i = .store) (addr v : Word) : BuiltFor i (storeWord addr v)
  | pushLoaded (hi : i = .load) (addr : Word) : BuiltFor i fun s => push (memRead s.mem addr) s
  | done {α : Type} (a : α) : BuiltFor i fun s => .done a s
  | raise {α : Type} (e : TickError) : BuiltFor i fun s => (.raised e s : Micro α)
  | bind {α β : Type} {f : State → Micro α} {g : α → State → Micro β} :
      BuiltFor i f → (∀ a, BuiltFor i (g a)) → BuiltFor i fun s => (f s).bind g

section
variable {i : Instr}

theorem BuiltFor.ite {α : Type} {f g : State → Micro α} (c : Prop) [Decidable c] (hf : BuiltFor i f)
    (hg : BuiltFor i g) : BuiltFor i fun s => if c then f s else g s := by
  by_cases h : c
  · simpa only [if_pos h] using hf
  · simpa only [if_neg h] using hg

theorem unaryOp_builtFor (f : Word → Word) : BuiltFor i (unaryOp f) :=
  .bind .pop fun v => .push (f v)

theorem popPair_builtFor : BuiltFor i popPair :=
  .bind .pop fun b => .bind .pop fun a => .done (a, b)

theorem binaryOp_builtFor (f : Word → Word → Word) : BuiltFor i (binaryOp f) :=
  .bind popPair_builtFor fun p => .push (f p.1 p.2)

theorem divideOp_builtFor (f : Word → Word → Word) : BuiltFor i (divideOp f) :=
  .bind popPair_builtFor fun p => .ite (p.2 = 0) (.raise .arithmeticError) (.push (f p.1 p.2))

theorem jumpIfOne_builtFor (hi : isJump i = true) (cond : Word → Bool) : BuiltFor i (jumpIfOne cond) :=
  .bind .pop fun target => .bind .pop fun v => .ite (cond v) (.jumpTo hi target) (.done ())

theorem jumpIfTwo_builtFor (hi : isJump i = true) (cond : Word → Word → Bool) : BuiltFor i (jumpIfTwo cond) :=
  .bind .pop fun target => .bind popPair_builtFor fun p => .ite (cond p.1 p.2) (.jumpTo hi target) (.done ())

end

/-- Every instruction's meaning is a sequence of the micro-operations it may use, ended by `endTick`. -/
theorem exec_builtFor (i : Instr) : ∃ op : State → Micro Unit, BuiltFor i op ∧ ∀ s, exec i s = endTick (op s) := by
  cases i with
  | push32 _ | push8 _ | push16 _ => exact ⟨_, .push _, fun _ => rfl⟩
  | pop => exact ⟨_, .bind .pop fun _ => .done (), fun _ => rfl⟩
  | load => exact ⟨_, .bind .pop (.pushLoaded rfl), fun _ => rfl⟩
  | store => exact ⟨_, .bind .pop fun addr => .bind .pop (.storeWord rfl addr), fun _ => rfl⟩
  | clone => exact ⟨_, .bind (.stackRead cloneOffset) .push, fun _ => rfl⟩
  | loads => exact ⟨_, .bind .pop fun o => .bind (.stackRead o.toInt) .push, fun _ => rfl⟩
  | stors => exact ⟨_, .bind .pop fun o => .bind .pop (.stackWrite o.toInt), fun _ => rfl⟩
  | swap => exact ⟨_, .bind .pop fun x => .bind .pop fun y => .bind (.push x) fun _ => .push y, fun _ => rfl⟩
  | jmp => exact ⟨_, .bind .pop (.jumpTo rfl), fun _ => rfl⟩
  | jz | jnz => exact ⟨_, jumpIfOne_builtFor rfl _, fun _ => rfl⟩
  | jg | jge | je | jne => exact ⟨_, jumpIfTwo_builtFor rfl _, fun _ => rfl⟩
  | not | inc | dec | neg | abs => exact ⟨_, unaryOp_builtFor _, fun _ => rfl⟩
  | and | or | xor | add | sub | shl | shr | mul => exact ⟨_, binaryOp_builtFor _, fun _ => rfl⟩
  | div | mod => exact ⟨_, divideOp_builtFor _, fun _ => rfl⟩
  | debug | nop | undefinedOpcode _ => exact ⟨_, .done (), fun _ => rfl⟩

end Sys2Proof.Machine
end

section
/-! PROOFS. What an instruction, and what a tick, leaves unchanged. -/

namespace Sys2Proof.Machine

/-- What every tick keeps between the state before and the state after: the program (10_state.md R30), `SP` in its range
(R22), and memory in canonical form. -/
structure StepFrame (s t : State) : Prop where
  program : t.program = s.program
  sp_le : s.sp.toNat ≤ 256 → t.sp.toNat ≤ 256
  mem_wf : Memory.wf s.mem = true → Memory.wf t.mem = true

/-- What instruction `i` keeps beyond that: `IP` unless it is a jump, memory unless it is `store`. -/
structure ExecFrame (i : Instr) (s t : State) : Prop extends StepFrame s t where
  ip : isJump i = false → t.ip = s.ip
  mem : i ≠ .store → t.mem = s.mem

/-- The state a micro-operation leaves, after a raise too (60_exceptions.md R206). -/
def Micro.state {α : Type} : Micro α → State
  | .done _ s => s
  | .raised _ s => s

@[simp] theorem state_done {α : Type} (a : α) (s : State) : (Micro.done a s).state = s := rfl

@[simp] theorem state_raised {α : Type} (e : TickError) (s : State) : (Micro.raised e s : Micro α).state = s := rfl

theorem StepFrame.trans {s t u : State} (h : StepFrame s t) (h' : StepFrame t u) : StepFrame s u where
  program := h'.program.trans h.program
  sp_le hs := h'.sp_le (h.sp_le hs)
  mem_wf hm := h'.mem_wf (h.mem_wf hm)

section
variable {i : Instr}

theorem ExecFrame.refl (s : State) : ExecFrame i s s := ⟨⟨rfl, id, id⟩, fun _ => rfl, fun _ => rfl⟩

theorem ExecFrame.trans {s t u : State} (h : ExecFrame i s t) (h' : ExecFrame i t u) : ExecFrame i s u where
  toStepFrame := h.toStepFrame.trans h'.toStepFrame
  ip hi := (h'.ip hi).trans (h.ip hi)
  mem hi := (h'.mem hi).trans (h.mem hi)

theorem push_frame (v : Word) (s : State) : ExecFrame i s (push v s).state := by
  rcases push_cases v s with ⟨_, e⟩ | ⟨h, e⟩ <;> rw [e]
  · exact .refl s
  · have hsp : s.sp.toNat ≤ 256 → (s.sp - 1).toNat ≤ 256 := by bv_omega
    exact ⟨⟨rfl, hsp, id⟩, fun _ => rfl, fun _ => rfl⟩

theorem pop_frame (s : State) : ExecFrame i s (pop s).state := by
  rcases pop_cases s with ⟨_, e⟩ | ⟨h, e⟩ <;> rw [e]
  · exact .refl s
  · have hsp : (s.sp + 1).toNat ≤ 256 := by bv_omega
    exact ⟨⟨rfl, fun _ => hsp, id⟩, fun _ => rfl, fun _ => rfl⟩

theorem stackRead_frame (k : Int) (s : State) : ExecFrame i s (stackRead k s).state := by
  rcases stackRead_cases k s with ⟨_, e⟩ | ⟨_, e⟩ | ⟨_, _, e⟩ <;> rw [e] <;> exact .refl s

theorem stackWrite_frame (k : Int) (v : Word) (s : State) : ExecFrame i s (stackWrite k v s).state := by
  rcases stackWrite_cases k v s with ⟨_, e⟩ | ⟨_, e⟩ | ⟨_, _, e⟩ <;> rw [e]
  · exact .refl s
  · exact .refl s
  · exact ⟨⟨rfl, id, id⟩, fun _ => rfl, fun _ => rfl⟩

theorem jumpTo_frame (hi : isJump i = true) (target : Word) (s : State) :
    ExecFrame i s (jumpTo target s).state :=
  ⟨⟨rfl, id, id⟩, fun hn => absurd (hi.symm.trans hn) (by decide), fun _ => rfl⟩

theorem storeWord_frame (hi : i = .store) (addr v : Word) (s : State) :
    ExecFrame i s (storeWord addr v s).state :=
  ⟨⟨rfl, id, memWrite_wf s.mem addr v⟩, fun _ => rfl, fun hn => absurd hi hn⟩

theorem bind_frame {α β : Type} {m : Micro α} {f : α → State → Micro β} {s : State} (hm : ExecFrame i s m.state)
    (hf : ∀ a u, ExecFrame i u (f a u).state) : ExecFrame i s (m.bind f).state := by
  cases m with
  | done a u => exact hm.trans (hf a u)
  | raised e u => exact hm

/-- What holds of each micro-operation holds of a sequence of them. -/
theorem BuiltFor.frame {α : Type} {op : State → Micro α} (h : BuiltFor i op) (s : State) :
    ExecFrame i s (op s).state := by
  induction h generalizing s with
  | push v => exact push_frame v s
  | pop => exact pop_frame s
  | stackRead o => exact stackRead_frame _ s
  | stackWrite o v => exact stackWrite_frame _ v s
  | jumpTo hi target => exact jumpTo_frame hi target s
  | storeWord hi addr v => exact storeWord_frame hi addr v s
  | pushLoaded hi addr => exact push_frame _ s
  | done a => exact .refl s
  | raise e => exact .refl s
  | bind _ _ ihf ihg => exact bind_frame (ihf s) ihg

/-- The end of a tick writes the status only. -/
theorem endTick_frame {m : Micro Unit} {s t : State} (hm : ExecFrame i s m.state) (h : endTick m = .next t) :
    ExecFrame i s t := by
  rcases endTick_cases m t h with ⟨u, rfl, rfl⟩ | ⟨e, u, rfl, rfl⟩
  · exact hm.trans ⟨⟨rfl, id, id⟩, fun _ => rfl, fun _ => rfl⟩
  · exact hm.trans ⟨⟨rfl, id, id⟩, fun _ => rfl, fun _ => rfl⟩

/-- The frame of every instruction, whatever status it ends with. -/
theorem exec_frame {s t : State} (h : exec i s = .next t) : ExecFrame i s t := by
  obtain ⟨op, hop, e⟩ := exec_builtFor i
  exact endTick_frame (hop.frame s) ((e s).symm.trans h)

end

theorem restart_frame (s : State) : StepFrame s (restart s) := by
  rcases restart_cases s with ⟨_, e⟩ | ⟨_, e⟩ <;> rw [e]
  · exact ⟨rfl, fun _ => Nat.le_refl 256, id⟩
  · exact ⟨rfl, id, id⟩

/-- Every tick, whether it runs an instruction or ends with `FetchOutOfRange`. -/
theorem step_frame {s t : State} (h : step s = .next t) : StepFrame s t := by
  rcases step_cases s with ⟨i, _, e⟩ | ⟨_, e⟩ | ⟨w, _, e⟩ <;> rw [e] at h
  · have hadv : StepFrame (restart s) (advance (instrLength i) (restart s)) := ⟨rfl, id, id⟩
    exact (restart_frame s).trans (hadv.trans (exec_frame h).toStepFrame)
  · cases h
    exact (restart_frame s).trans ⟨rfl, id, id⟩
  · cases h
    exact (restart_frame s).trans ⟨rfl, id, id⟩

end Sys2Proof.Machine
end

section
/-! PROOFS. What memory can influence: two runs of an operation from states that differ in memory only. -/

namespace Sys2Proof.Machine

/-- Two outcomes of a micro-operation that differ in the memory they leave only: the same value or the same error, and
the same `IP`, `SP`, stack, program and recorded status. -/
inductive SameButMem {α : Type} : Micro α → Micro α → Prop where
  | done (a : α) (s : State) (m : Memory) : SameButMem (.done a s) (.done a { s with mem := m })
  | raised (e : TickError) (s : State) (m : Memory) : SameButMem (.raised e s) (.raised e { s with mem := m })

/-- `op` does the same whatever memory holds, up to memory itself. -/
def MemBlind {α : Type} (op : State → Micro α) : Prop := ∀ s m, SameButMem (op s) (op { s with mem := m })

theorem push_memBlind (v : Word) : MemBlind (push v) := by
  intro s m
  rcases push_cases v s with ⟨h, e⟩ | ⟨h, e⟩ <;> rw [e]
  · rw [push_full v { s with mem := m } h]; exact .raised _ s m
  · rw [push_room v { s with mem := m } h]; exact .done () _ m

theorem pop_memBlind : MemBlind pop := by
  intro s m
  rcases pop_cases s with ⟨h, e⟩ | ⟨h, e⟩ <;> rw [e]
  · rw [pop_empty { s with mem := m } h]; exact .raised _ s m
  · rw [pop_live { s with mem := m } h]; exact .done _ _ m

theorem stackRead_memBlind (k : Int) : MemBlind (stackRead k) := by
  intro s m
  unfold stackRead
  split_ifs
  · exact .raised _ s m
  · exact .raised _ s m
  · exact .done _ s m

theorem stackWrite_memBlind (k : Int) (v : Word) : MemBlind (stackWrite k v) := by
  intro s m
  unfold stackWrite
  split_ifs
  · exact .raised _ s m
  · exact .raised _ s m
  · exact .done () (s.setSlot k.toNat v) m

theorem MemBlind.bind {α β : Type} {f : State → Micro α} {g : α → State → Micro β} (hf : MemBlind f)
    (hg : ∀ a, MemBlind (g a)) : MemBlind fun s => (f s).bind g := by
  intro s m
  have key : ∀ {x y : Micro α}, SameButMem x y → SameButMem (x.bind g) (y.bind g) := by
    intro x y h
    cases h with
    | done a u n => exact hg a u n
    | raised e u n => exact .raised e u n
  exact key (hf s m)

/-- Of all micro-operations only the read of `load` looks at memory. -/
theorem BuiltFor.memBlind {i : Instr} (hi : i ≠ .load) {α : Type} {op : State → Micro α} (h : BuiltFor i op) :
    MemBlind op := by
  induction h with
  | push v => exact push_memBlind v
  | pop => exact pop_memBlind
  | stackRead o => exact fun s m => stackRead_memBlind (indexFromSp s o) s m
  | stackWrite o v => exact fun s m => stackWrite_memBlind (indexFromSp s o) v s m
  | jumpTo _ target => exact fun s m => .done () { s with ip := target } m
  | storeWord _ addr v => exact fun s m => .done () { s with mem := memWrite s.mem addr v } (memWrite m addr v)
  | pushLoaded hl => exact absurd hl hi
  | done a => exact fun s m => .done a s m
  | raise e => exact fun s m => .raised e s m
  | bind _ _ ihf ihg => exact ihf.bind ihg

theorem endTick_sameButMem {x y : Micro Unit} {t : State} (h : SameButMem x y) (ht : endTick x = .next t) :
    ∃ t', endTick y = .next t' ∧ { t' with mem := t.mem } = t := by
  cases h with
  | done a s m => cases ht; exact ⟨_, rfl, rfl⟩
  | raised e s m => cases ht; exact ⟨_, rfl, rfl⟩

/-- Every instruction but `load` does the same whatever memory holds (10_state.md R28). -/
theorem exec_sameButMem {i : Instr} (hi : i ≠ .load) {s t : State} (m : Memory) (h : exec i s = .next t) :
    ∃ t', exec i { s with mem := m } = .next t' ∧ { t' with mem := t.mem } = t := by
  obtain ⟨op, hop, e⟩ := exec_builtFor i
  rw [e] at h ⊢
  exact endTick_sameButMem (hop.memBlind hi s m) h

end Sys2Proof.Machine
end

section
/-! PROOFS. The statements of 10_state.md. -/

namespace Sys2Proof.Machine

/-- Settles O55: each part of the invariant is kept by every tick (`step_frame`). -/
theorem everyStepKeepsTheInvariant : Obligations.EveryStepKeepsTheInvariant := by
  intro s t ⟨hmem, hsp, hsize⟩ h
  have frame := step_frame h
  refine ⟨frame.mem_wf hmem, frame.sp_le hsp, ?_⟩
  rw [State.codeSize, frame.program]
  exact hsize

/-- Settles O59: fetching looks at no memory, and of the instructions only `load` does. -/
theorem onlyLoadLearnsMemory : Obligations.OnlyLoadLearnsMemory := by
  intro s t m hop h
  have hr := restart_withMem s m
  have hbytes : bytesAtIp (restart { s with mem := m }) = bytesAtIp (restart s) := by rw [hr]; rfl
  rcases step_cases s with ⟨i, hd, e⟩ | ⟨hd, e⟩ | ⟨w, hd, e⟩ <;> rw [e] at h <;> rw [← hbytes] at hd
  · have hi : i ≠ .load := by
      rintro rfl
      exact hop (fetch8_of_decode (hbytes ▸ hd))
    rw [step_of_decode hd, hr]
    exact exec_sameButMem hi m h
  · cases h
    rw [step_of_noOpcode hd, hr]
    exact ⟨_, rfl, rfl⟩
  · cases h
    rw [step_of_truncated hd, hr]
    exact ⟨_, rfl, rfl⟩

/-- Settles O57: the program is part of every tick's frame. -/
theorem noTickWritesTheProgram : Obligations.NoTickWritesTheProgram := fun _ _ h => (step_frame h).program

/-- Settles O5: inside the program there is no restart, so the tick is `exec` at the advanced `IP`. -/
theorem stepRunsTheDecodedInstruction : Obligations.StepRunsTheDecodedInstruction := by
  intro s i hip hd
  have hr := restart_of_lt hip
  have hs : step s = exec i (advance (instrLength i) (restart s)) := step_of_decode (by rw [hr]; exact hd)
  exact ⟨decode_wf hd, by rw [hs, hr]; rfl⟩

/-- Settles O8: no instruction but a jump writes `IP`, so it stays where the tick advanced it, and the sum does not wrap
because a decoded instruction ends inside the program. -/
theorem nonJumpsAdvanceByTheirLength : Obligations.NonJumpsAdvanceByTheirLength := by
  intro s t i hsize hip hd hjump h
  rw [(stepRunsTheDecodedInstruction s i hip hd).2] at h
  have frame := exec_frame h
  have hend := ip_add_instrLength_le hip hd
  have hsum : (s.ip + BitVec.ofNat 32 (instrLength i)).toNat = s.ip.toNat + instrLength i := by
    rw [BitVec.toNat_add, BitVec.toNat_ofNat]
    omega
  have ht : t.ip.toNat = s.ip.toNat + instrLength i := by rw [frame.ip hjump]; exact hsum
  refine ⟨ht, ?_⟩
  rw [ht, State.codeSize, frame.program]
  exact hend

/-- Settles O6: the restarted state restarts to itself, so both ticks run from it. -/
theorem restartIsPartOfTheSameTick : Obligations.RestartIsPartOfTheSameTick := by
  intro s h
  rw [← restart_of_le h, step_restart]

/-- Settles O11, by the two outcomes of `Push`. -/
theorem pushWritesBelowTheTop : Obligations.PushWritesBelowTheTop := by
  intro s v
  refine ⟨push_full v s, fun hlow hhigh => ⟨_, push_room v s (sp_ne_zero _ hlow), ?_⟩⟩
  have hsp : (s.sp - 1).toNat = s.sp.toNat - 1 := by bv_omega
  have hslot := fun j => slot_setSlot s (s.sp.toNat - 1) j v (by omega)
  refine ⟨hsp, ?_, fun j hj => ?_, rfl, rfl, rfl⟩
  · exact (hslot _).trans (if_pos hsp.symm)
  · exact (hslot j).trans (if_neg fun hij => hj (hij.symm.trans hsp.symm))

/-- Settles O12, by the two outcomes of `Pop`, which writes no slot. -/
theorem popReturnsTheTopAndKeepsTheSlot : Obligations.PopReturnsTheTopAndKeepsTheSlot := by
  intro s
  refine ⟨fun h => pop_empty s (by rw [h]; decide), fun h => ⟨_, pop_live s (by omega), ?_⟩⟩
  exact ⟨sp_add_one_toNat s.sp h, fun _ => rfl, rfl, rfl, rfl, rfl⟩

/-- Settles O13, by the three ranges of the index. -/
theorem indexedAccessIsChecked : Obligations.IndexedAccessIsChecked := by
  intro s i v
  refine ⟨fun h => ?_, fun h => ?_, fun h0 h255 => ?_⟩
  · exact ⟨stackRead_below i s h, stackWrite_below i v s h⟩
  · exact ⟨stackRead_above i s h, stackWrite_above i v s h⟩
  · refine ⟨stackRead_inside i s h0 h255, _, stackWrite_inside i v s h0 h255, fun j => ?_, rfl, rfl, rfl, rfl⟩
    have hij : i.toNat = j ↔ (j : Int) = i := by omega
    rw [slot_setSlot s i.toNat j v (by omega)]
    simp only [hij]

/-- Settles O54: memory is empty, `SP` is 256 and there is no program. -/
theorem resetMeetsTheInvariant : Obligations.ResetMeetsTheInvariant :=
  ⟨reset_mem_wf, Nat.le_refl 256, Nat.zero_le _⟩

end Sys2Proof.Machine
end

section
/-! PROOFS. Where the bytes of a word lie, by the segment of its address (20_memory.md R50 to R55). -/

namespace Sys2Proof.Machine

section
variable {addr addr' : Word}

theorem cellOf_heap (h : addr.extractLsb' 12 4 = 0x0) (k : Nat) :
    cellOf addr k = some (addr.setWidth 12 + BitVec.ofNat 12 k).toNat := by
  have hs : segmentOf addr = .heap := by rw [segmentOf, h]; rfl
  rw [cellOf, hs]

theorem cellOf_graphics (h : addr.extractLsb' 12 4 = 0xA) (k : Nat) :
    cellOf addr k = some (gfxBase + (addr.setWidth 10 + BitVec.ofNat 10 k).toNat) := by
  have hs : segmentOf addr = .graphics := by rw [segmentOf, h]; rfl
  rw [cellOf, hs]

/-- Behind every other selector, the I/O window's included, there is no storage (R54, R55). -/
theorem cellOf_noStorage (h0 : addr.extractLsb' 12 4 ≠ 0x0) (hA : addr.extractLsb' 12 4 ≠ 0xA) (k : Nat) :
    cellOf addr k = none := by
  have n0 : (addr.extractLsb' 12 4).toNat ≠ 0 := fun h => h0 (BitVec.eq_of_toNat_eq h)
  have nA : (addr.extractLsb' 12 4).toNat ≠ 10 := fun h => hA (BitVec.eq_of_toNat_eq h)
  have hs : segmentOf addr = .ioWindow ∨ segmentOf addr = .unmapped := by
    unfold segmentOf
    split
    · exact absurd ‹_› n0
    · exact absurd ‹_› nA
    · exact .inl rfl
    · exact .inr rfl
  rcases hs with hs | hs <;> rw [cellOf, hs]

/-- In the heap a byte of the word lies at the offset `o` exactly when `o` is the wrapped sum (R52, R60). -/
theorem cellOf_heap_iff (h : addr.extractLsb' 12 4 = 0x0) (k : Nat) (o : BitVec 12) :
    cellOf addr k = some o.toNat ↔ o = addr.setWidth 12 + BitVec.ofNat 12 k := by
  rw [cellOf_heap h, Option.some_inj, BitVec.toNat_inj, eq_comm]

/-- In the graphics region likewise, with 10 bits (R53, R60). -/
theorem cellOf_graphics_iff (h : addr.extractLsb' 12 4 = 0xA) (k : Nat) (o : BitVec 10) :
    cellOf addr k = some (gfxBase + o.toNat) ↔ o = addr.setWidth 10 + BitVec.ofNat 10 k := by
  rw [cellOf_graphics h, Option.some_inj, Nat.add_left_cancel_iff, BitVec.toNat_inj, eq_comm]

/-- The two regions share no cell: every heap cell lies below `gfxBase`. -/
theorem cellOf_heap_ne_graphics (h : addr.extractLsb' 12 4 = 0x0) (k : Nat) (o : BitVec 10) :
    cellOf addr k ≠ some (gfxBase + o.toNat) := by
  have hlt := (addr.setWidth 12 + BitVec.ofNat 12 k).isLt
  rw [cellOf_heap h, Ne, Option.some_inj, gfxBase]
  omega

theorem cellOf_graphics_ne_heap (h : addr.extractLsb' 12 4 = 0xA) (k : Nat) (o : BitVec 12) :
    cellOf addr k ≠ some o.toNat := by
  have hlt := o.isLt
  rw [cellOf_graphics h, Ne, Option.some_inj, gfxBase]
  omega

/-- Every byte of a word in the heap or in the graphics region has a cell. -/
theorem cellOf_isSome (h : addr.extractLsb' 12 4 = 0x0 ∨ addr.extractLsb' 12 4 = 0xA) (k : Nat) :
    ∃ a, cellOf addr k = some a := by
  rcases h with h | h
  · exact ⟨_, cellOf_heap h k⟩
  · exact ⟨_, cellOf_graphics h k⟩

/-- Bits 31 to 16 take no part: the selector and both offsets lie in the low 16 bits (R50). -/
theorem cellOf_congr_low16 (h : addr.extractLsb' 0 16 = addr'.extractLsb' 0 16) : cellOf addr = cellOf addr' := by
  have sel (a : Word) : a.extractLsb' 12 4 = (a.extractLsb' 0 16).extractLsb' 12 4 := by
    ext i hi; simp
  have off (a : Word) (w : Nat) (hw : w ≤ 16) : a.setWidth w = (a.extractLsb' 0 16).setWidth w := by
    ext i hi; simp; omega
  funext k
  simp only [cellOf, segmentOf, sel addr, sel addr', off addr 12 (by omega), off addr' 12 (by omega),
    off addr 10 (by omega), off addr' 10 (by omega), h]

/-- In the graphics segment bits 11 and 10 take no part either (R53). -/
theorem cellOf_congr_graphics (h : addr.extractLsb' 12 4 = 0xA) (h' : addr'.extractLsb' 12 4 = 0xA)
    (hlow : addr.extractLsb' 0 10 = addr'.extractLsb' 0 10) : cellOf addr = cellOf addr' := by
  have off : addr.setWidth 10 = addr'.setWidth 10 := by
    simpa only [BitVec.setWidth_eq_extractLsb' (show 10 ≤ 32 by omega)] using hlow
  funext k
  rw [cellOf_graphics h, cellOf_graphics h', off]

end

end Sys2Proof.Machine
end

section
/-! PROOFS. Reading and writing one word (20_memory.md R57, R58), through the cells its four bytes lie in. -/

namespace Sys2Proof.Machine

section
variable {addr addr' : Word}

/-- `MemRead` looks at the address through its cells only. -/
theorem memRead_congr (m : Memory) (h : cellOf addr = cellOf addr') : memRead m addr = memRead m addr' := by
  simp only [memRead, readByteAt, h]

/-- `MemWrite` looks at the address through its cells only. -/
theorem memWrite_congr (m : Memory) (v : Word) (h : cellOf addr = cellOf addr') :
    memWrite m addr v = memWrite m addr' v := by
  simp only [memWrite, writeByteAt, h]

theorem readByteAt_of_cell {m : Memory} {k a : Nat} (h : cellOf addr k = some a) :
    readByteAt m addr k = Memory.read m a := by
  rw [readByteAt, h]

theorem readByteAt_heap (s : State) (h : addr.extractLsb' 12 4 = 0x0) (k : Nat) :
    readByteAt s.mem addr k = observeHeap s (addr.setWidth 12 + BitVec.ofNat 12 k) :=
  readByteAt_of_cell (cellOf_heap h k)

theorem readByteAt_graphics (s : State) (h : addr.extractLsb' 12 4 = 0xA) (k : Nat) :
    readByteAt s.mem addr k = observeGfx s (addr.setWidth 10 + BitVec.ofNat 10 k) :=
  readByteAt_of_cell (cellOf_graphics h k)

theorem memRead_noStorage (m : Memory) (h0 : addr.extractLsb' 12 4 ≠ 0x0) (hA : addr.extractLsb' 12 4 ≠ 0xA) :
    memRead m addr = 0 := by
  have hbyte (k : Nat) : readByteAt m addr k = 0 := by rw [readByteAt, cellOf_noStorage h0 hA]
  simp only [memRead, hbyte]
  rfl

theorem memWrite_noStorage (m : Memory) (v : Word) (h0 : addr.extractLsb' 12 4 ≠ 0x0)
    (hA : addr.extractLsb' 12 4 ≠ 0xA) : memWrite m addr v = m := by
  simp only [memWrite, writeByteAt, cellOf_noStorage h0 hA]

/-- The four cells of a word are different, so each holds the byte that was written to it (R58). -/
theorem read_memWrite_of_cell (m : Memory) (v : Word) {k a : Nat} (hk : k < 4) (h : cellOf addr k = some a) :
    Memory.read (memWrite m addr v) a = byteOf v k := by
  have hother (j : Nat) (hj : j < 4) (hjk : j ≠ k) : cellOf addr j ≠ some a :=
    fun hja => hjk (cellOf_injective addr j k a hj hk hja h)
  rw [read_memWrite]
  interval_cases k <;> simp [h, hother]

/-- A cell in which no byte of the word lies is kept. -/
theorem read_memWrite_of_not_cell (m : Memory) (v : Word) {a : Nat} (h : ∀ k < 4, cellOf addr k ≠ some a) :
    Memory.read (memWrite m addr v) a = Memory.read m a := by
  rw [read_memWrite, if_neg (h 3 (by omega)), if_neg (h 2 (by omega)), if_neg (h 1 (by omega)),
    if_neg (h 0 (by omega))]

/-- `read_memWrite` with the bytes in rising order: the four cells are different, so the order does not matter (R58). -/
theorem read_memWrite_rising (m : Memory) (addr v : Word) (a : Nat) :
    Memory.read (memWrite m addr v) a =
      if cellOf addr 0 = some a then byteOf v 0 else if cellOf addr 1 = some a then byteOf v 1
      else if cellOf addr 2 = some a then byteOf v 2 else if cellOf addr 3 = some a then byteOf v 3
      else Memory.read m a := by
  split_ifs with h0 h1 h2 h3
  · exact read_memWrite_of_cell m v (by omega) h0
  · exact read_memWrite_of_cell m v (by omega) h1
  · exact read_memWrite_of_cell m v (by omega) h2
  · exact read_memWrite_of_cell m v (by omega) h3
  · refine read_memWrite_of_not_cell m v fun k hk => ?_
    interval_cases k <;> assumption

/-- Where there is storage, each byte of a stored word reads back. -/
theorem readByteAt_memWrite (m : Memory) (v : Word)
    (h : addr.extractLsb' 12 4 = 0x0 ∨ addr.extractLsb' 12 4 = 0xA) {k : Nat} (hk : k < 4) :
    readByteAt (memWrite m addr v) addr k = byteOf v k := by
  obtain ⟨a, ha⟩ := cellOf_isSome h k
  rw [readByteAt_of_cell ha, read_memWrite_of_cell m v hk ha]

end

end Sys2Proof.Machine
end

section
/-! PROOFS. `load` and `store` with their operands on the stack (41_load_store.md R120, R121), and the ticks that keep
memory. -/

namespace Sys2Proof.Machine

theorem exec_load_live (s : State) (h : s.sp.toNat ≤ 255) :
    exec .load s = .next
      { s with stack := setSlots s.stack s.sp.toNat (memRead s.mem (s.nth 0)), tickStatus := .ok } := by
  have hexec : exec .load s = endTick ((pop s).bind fun addr s => push (memRead s.mem addr) s) := rfl
  rw [hexec, pop_live s (by omega), bind_done, push_over_one _ s h]
  rfl

/-- `store` pops the address, then the value, as `popPair` does, and writes. -/
theorem exec_store_popPair (s : State) :
    exec .store s = endTick ((popPair s).bind fun p s => storeWord p.2 p.1 s) := by
  have hexec : exec .store s =
      endTick ((pop s).bind fun addr s => (pop s).bind fun value s => storeWord addr value s) := rfl
  rw [hexec, popPair]
  cases pop s with
  | raised e s => rfl
  | done addr s => simp only [bind_done]; cases pop s <;> rfl

theorem exec_store_live (s : State) (h : s.sp.toNat ≤ 254) :
    exec .store s = .next
      { s with sp := s.sp + 2, mem := memWrite s.mem (s.nth 0) (s.nth 1), tickStatus := .ok } := by
  rcases popPair_cases s with ⟨h', _⟩ | ⟨h', _⟩ | ⟨_, e⟩
  · omega
  · omega
  · rw [exec_store_popPair, e]
    rfl

/-- A tick whose opcode is not that of `store` keeps memory, also where it ends with an error (20_memory.md R71). -/
theorem step_mem_of_not_store {s t : State} (hop : fetch8 (restart s) (restart s).ip.toNat ≠ some 0x03)
    (h : step s = .next t) : t.mem = s.mem := by
  rcases step_cases s with ⟨i, hd, e⟩ | ⟨_, e⟩ | ⟨w, _, e⟩ <;> rw [e] at h
  · have hi : i ≠ .store := by
      rintro rfl
      exact hop (fetch8_of_decode hd)
    rw [(exec_frame h).mem hi, advance_mem, restart_mem]
  · cases h
    simp
  · cases h
    simp

theorem hostLoad_mem {bytes : List Byte} {s t : State} (h : hostLoad bytes s = .next t) : t.mem = s.mem := by
  unfold hostLoad at h
  split at h <;> cases h
  rfl

end Sys2Proof.Machine
end

section
/-! PROOFS. The statements of 20_memory.md. -/

namespace Sys2Proof.Machine

/-- Settles O23: a cell of the region is one of the word's four exactly at the four wrapped offsets, and no cell of the
other region is. -/
theorem memWriteSpreadsFourBytes : Obligations.MemWriteSpreadsFourBytes := by
  rintro s t addr v rfl
  refine ⟨?heap, ?graphics, fun h0 hA => by rw [memWrite_noStorage s.mem v h0 hA]⟩
  case heap =>
    rintro h off rfl
    constructor <;> intro o
    · simp only [observeHeap, read_memWrite_rising, cellOf_heap_iff h, BitVec.add_zero]
      rfl
    · exact read_memWrite_of_not_cell s.mem v fun k _ => cellOf_heap_ne_graphics h k o
  case graphics =>
    rintro h off rfl
    constructor <;> intro o
    · simp only [observeGfx, read_memWrite_rising, cellOf_graphics_iff h, BitVec.add_zero]
      rfl
    · exact read_memWrite_of_not_cell s.mem v fun k _ => cellOf_graphics_ne_heap h k o

/-- Settles O24: each of the four bytes reads back, so the word does. -/
theorem storedWordLoadsBack : Obligations.StoredWordLoadsBack := by
  intro m addr v
  refine ⟨fun h => ?_, memRead_noStorage (memWrite m addr v)⟩
  have hbyte {k : Nat} (hk : k < 4) := readByteAt_memWrite m v h hk
  rw [memRead, hbyte (by omega), hbyte (by omega), hbyte (by omega), hbyte (by omega)]
  exact imm32_byteOf v

/-- Settles O25: in both cases the two addresses have the same cells. -/
theorem ignoredAddressBitsDoNotMatter : Obligations.IgnoredAddressBitsDoNotMatter := by
  intro m addr addr' v h
  have hcells : cellOf addr = cellOf addr' := by
    rcases h with h | ⟨h, h', hlow⟩
    · exact cellOf_congr_low16 h
    · exact cellOf_congr_graphics h h' hlow
  exact ⟨memRead_congr m hcells, memWrite_congr m v hcells⟩

/-- Settles O58, by the frames of the tick, of Load and of the restart. -/
theorem onlyStoreChangesMemory : Obligations.OnlyStoreChangesMemory := by
  refine ⟨fun s t h hne => ?_, fun _ _ _ h => hostLoad_mem h, restart_mem⟩
  by_contra hop
  exact hne (step_mem_of_not_store hop h)

/-- Settles O22: each byte read is the one the host observes at the wrapped offset. -/
theorem memReadGathersFourBytes : Obligations.MemReadGathersFourBytes := by
  intro s addr
  refine ⟨?heap, ?graphics, memRead_noStorage s.mem⟩
  case heap =>
    rintro h off rfl
    simp only [memRead, readByteAt_heap s h, BitVec.add_zero]
    rfl
  case graphics =>
    rintro h off rfl
    simp only [memRead, readByteAt_graphics s h, BitVec.add_zero]
    rfl

/-- Settles O28: `load` pushes the 0 that reads there, and `store` writes to no cell. -/
theorem unmappedAccessesAreHarmless : Obligations.UnmappedAccessesAreHarmless := by
  intro s h0 hA
  refine ⟨fun h => ?_, fun h => ?_⟩
  · rw [exec_load_live s h, memRead_noStorage s.mem h0 hA]
  · rw [exec_store_live s h, memWrite_noStorage s.mem _ h0 hA]

end Sys2Proof.Machine
end

section
/-! PROOFS. The round trips of the encoder and the decoder, and when the decoder fails (30_encoding.md R80 to R85). -/

namespace Sys2Proof

theorem encode_length (i : Instr) : (encode i).length = instrLength i := by
  cases i <;> rfl

/-- An undefined byte takes no immediate, and no row of R83 lists it (R84). -/
theorem decodePlain_of_undefined : ∀ op : Byte, isUndefinedOpcode op = true →
    op.toNat ≠ 0 ∧ op.toNat ≠ 4 ∧ op.toNat ≠ 5 ∧ decodePlain op = .undefinedOpcode op := by decide

theorem decode_encode {i : Instr} (hi : i.wf = true) (rest : List Byte) : decode (encode i ++ rest) = .ok i := by
  cases i with
  | push32 imm => exact congrArg (fun v => Except.ok (Instr.push32 v)) (imm32_byteOf imm)
  | push16 imm => exact congrArg (fun v => Except.ok (Instr.push16 v)) (imm16_extract imm)
  | undefinedOpcode op =>
    obtain ⟨n0, n4, n5, hop⟩ := decodePlain_of_undefined op hi
    exact (decode_plain op rest n0 n4 n5).trans (congrArg Except.ok hop)
  | _ => rfl

theorem immBytes_decodePlain : ∀ op : Byte, immBytes (decodePlain op) = [] := by decide

/-- The converse of `imm32_byteOf`: the immediate of `push32` gives its four bytes back (R82). -/
theorem immBytes_imm32 (b1 b2 b3 b4 : Byte) : immBytes (.push32 (imm32 b1 b2 b3 b4)) = [b1, b2, b3, b4] := by
  have h1 : byteOf (imm32 b1 b2 b3 b4) 0 = b1 := BitVec.extractLsb'_append_eq_right
  have h2 : byteOf (imm32 b1 b2 b3 b4) 1 = b2 :=
    (BitVec.extractLsb'_append_eq_of_le (by omega)).trans BitVec.extractLsb'_append_eq_right
  have h3 : byteOf (imm32 b1 b2 b3 b4) 2 = b3 :=
    (BitVec.extractLsb'_append_eq_of_le (by omega)).trans <|
      (BitVec.extractLsb'_append_eq_of_le (by omega)).trans BitVec.extractLsb'_append_eq_right
  have h4 : byteOf (imm32 b1 b2 b3 b4) 3 = b4 :=
    (BitVec.extractLsb'_append_eq_of_le (by omega)).trans <|
      (BitVec.extractLsb'_append_eq_of_le (by omega)).trans BitVec.extractLsb'_append_eq_left
  rw [immBytes, h1, h2, h3, h4]

/-- The converse of `imm16_extract`. -/
theorem immBytes_imm16 (b1 b2 : Byte) : immBytes (.push16 (imm16 b1 b2)) = [b1, b2] := by
  rw [immBytes, imm16, BitVec.extractLsb'_append_eq_right, BitVec.extractLsb'_append_eq_left]

theorem take_eq_encode_of_decode {bytes : List Byte} {i : Instr} (h : decode bytes = .ok i) :
    bytes.take (instrLength i) = encode i := by
  rcases decode_ok_cases h with ⟨_, _, _, _, _, rfl, rfl⟩ | ⟨_, _, rfl, rfl⟩ | ⟨_, _, _, rfl, rfl⟩ |
    ⟨op, _, rfl, _, _, _, rfl⟩
  · rw [encode, immBytes_imm32]; rfl
  · rfl
  · rw [encode, immBytes_imm16]; rfl
  · rw [encode, opcodeOf_decodePlain, immBytes_decodePlain, instrLength_decodePlain]; rfl

/-- The two shapes of `decode_cases` in which there is no instruction (R85). -/
theorem decode_error_cases {bytes : List Byte} {e : DecodeError} (h : decode bytes = .error e) :
    (bytes = [] ∧ e = .noOpcode) ∨
    (∃ op rest w, bytes = op :: rest ∧ rest.length < w ∧
      (op = 0x00 ∧ w = 4 ∨ op = 0x04 ∧ w = 1 ∨ op = 0x05 ∧ w = 2) ∧ e = .truncated w) := by
  rcases decode_cases bytes with ⟨hb, e⟩ | ⟨op, rest, w, hb, hlen, hw, e⟩ | ⟨_, _, _, _, _, _, e⟩ | ⟨_, _, _, e⟩ |
    ⟨_, _, _, _, e⟩ | ⟨_, _, _, _, _, _, e⟩ <;> rw [h] at e <;> cases e
  · exact .inl ⟨hb, rfl⟩
  · exact .inr ⟨op, rest, w, hb, hlen, hw, rfl⟩

/-- The bytes run out inside an immediate (R81, R85). -/
theorem decode_truncated {op : Byte} {rest : List Byte} {w : Nat} (hlen : rest.length < w)
    (hw : op = 0x00 ∧ w = 4 ∨ op = 0x04 ∧ w = 1 ∨ op = 0x05 ∧ w = 2) :
    decode (op :: rest) = .error (.truncated w) := by
  rcases hw with ⟨rfl, rfl⟩ | ⟨rfl, rfl⟩ | ⟨rfl, rfl⟩
  · match rest, hlen with
    | [], _ | [_], _ | [_, _], _ | [_, _, _], _ => rfl
  · match rest, hlen with
    | [], _ => rfl
  · match rest, hlen with
    | [], _ | [_], _ => rfl

/-- Settles O1: by the case of the instruction; the immediates are put together again from their bytes. -/
theorem decodeOfEncodeIsTheInstruction : Obligations.DecodeOfEncodeIsTheInstruction :=
  fun i rest hi => ⟨decode_encode hi rest, encode_length i⟩

/-- Settles O2: by the four shapes of bytes that decode. -/
theorem decodedBytesAreTheEncoding : Obligations.DecodedBytesAreTheEncoding :=
  fun _ _ h => ⟨decode_wf h, take_eq_encode_of_decode h⟩

/-- Settles O3: the two shapes of bytes that do not decode answer with different errors. -/
theorem decodeFailsOnlyWhenBytesRunOut : Obligations.DecodeFailsOnlyWhenBytesRunOut := by
  refine fun bytes => ⟨⟨fun h => ?none, ?_⟩, fun w => ⟨fun h => ?cut, ?_⟩⟩
  case none =>
    rcases decode_error_cases h with ⟨hb, _⟩ | ⟨_, _, _, _, _, _, e⟩
    · exact hb
    · cases e
  case cut =>
    rcases decode_error_cases h with ⟨_, e⟩ | ⟨op, rest, _, hb, hlen, hw, e⟩ <;> cases e
    exact ⟨op, rest, hb, hlen, hw⟩
  · rintro rfl
    rfl
  · rintro ⟨op, rest, rfl, hlen, hw⟩
    exact decode_truncated hlen hw

/-- Settles O4: the decoder is run on each of the nine byte sequences. -/
theorem writtenOutWordsDecode : Obligations.WrittenOutWordsDecode :=
  ⟨rfl, rfl, rfl, rfl, rfl, rfl, rfl, rfl, rfl⟩

end Sys2Proof
end

section
/-! PROOFS. The one-byte instructions at `IP`, and the no-ops (30_encoding.md R84, 44_misc.md R180 to R182). -/

namespace Sys2Proof.Machine

/-- A well-formed instruction without immediate bytes is its opcode byte (R80, R81). -/
theorem hasOpcode_of_wf {i : Instr} (hi : i.wf = true) (himm : immBytes i = []) : HasOpcode i (opcodeOf i) := by
  have henc : encode i = [opcodeOf i] := by rw [encode, himm]
  constructor
  · rw [← encode_length, henc, List.length_singleton]
  · intro rest
    rw [← decode_encode hi rest, henc, List.singleton_append]

theorem lt_codeSize_of_fetch8 {s : State} {op : Byte} (h : fetch8 s s.ip.toNat = some op) :
    s.ip.toNat < s.codeSize :=
  (List.getElem?_eq_some_iff.1 h).1

theorem bytesAtIp_of_fetch8 {s : State} {op : Byte} (h : fetch8 s s.ip.toNat = some op) :
    ∃ rest, bytesAtIp s = op :: rest := by
  rw [← List.head?_eq_some_iff, List.head?_eq_getElem?, bytesAtIp_get]
  exact h

/-- A tick at a one-byte instruction executes it with `IP` advanced by 1 (10_state.md R32). -/
theorem step_of_hasOpcode {s : State} {i : Instr} {op : Byte} (h : fetch8 s s.ip.toNat = some op)
    (hop : HasOpcode i op) : step s = exec i { s with ip := s.ip + 1 } := by
  obtain ⟨hlen, hdec⟩ := hop
  obtain ⟨rest, hb⟩ := bytesAtIp_of_fetch8 h
  have hr := restart_of_lt (lt_codeSize_of_fetch8 h)
  rw [step_of_decode (i := i) (by rw [hr, hb, hdec]), hr, hlen]
  rfl

theorem isUndefinedOpcode_iff (op : Byte) : isUndefinedOpcode op = true ↔
    (10 ≤ op.toNat ∧ op.toNat ≤ 15 ∨ 23 ≤ op.toNat ∧ op.toNat ≤ 31 ∨ 47 ≤ op.toNat ∧ op.toNat ≤ 253) := by
  simp [isUndefinedOpcode, or_assoc]

theorem hasOpcode_debug : HasOpcode .debug 0xFE := hasOpcode_of_wf rfl rfl

theorem hasOpcode_nop : HasOpcode .nop 0xFF := hasOpcode_of_wf rfl rfl

theorem hasOpcode_undefined {op : Byte} (h : 10 ≤ op.toNat ∧ op.toNat ≤ 15 ∨ 23 ≤ op.toNat ∧ op.toNat ≤ 31 ∨
    47 ≤ op.toNat ∧ op.toNat ≤ 253) : HasOpcode (.undefinedOpcode op) op :=
  hasOpcode_of_wf (i := .undefinedOpcode op) ((isUndefinedOpcode_iff op).2 h) rfl

section
variable (s : State) (op : Byte)

theorem exec_debug : exec .debug s = .next (returnOk s) := rfl

theorem exec_nop : exec .nop s = .next (returnOk s) := rfl

theorem exec_undefinedOpcode : exec (.undefinedOpcode op) s = .next (returnOk s) := rfl

end

/-- Settles O46: from 47 up every byte is an undefined one, `debug` or `nop`. -/
theorem noOpsChangeNothing : Obligations.NoOpsChangeNothing := by
  refine ⟨hasOpcode_debug, hasOpcode_nop, fun _ => hasOpcode_undefined,
    fun s op => ⟨exec_debug s, exec_nop s, exec_undefinedOpcode s op⟩, fun s op hf hop => ?_⟩
  have hcases : (10 ≤ op.toNat ∧ op.toNat ≤ 15 ∨ 23 ≤ op.toNat ∧ op.toNat ≤ 31 ∨ 47 ≤ op.toNat ∧ op.toNat ≤ 253) ∨
      op = 0xFE ∨ op = 0xFF := by
    bv_omega
  rcases hcases with hundef | rfl | rfl
  · exact step_of_hasOpcode hf (hasOpcode_undefined hundef)
  · exact step_of_hasOpcode hf hasOpcode_debug
  · exact step_of_hasOpcode hf hasOpcode_nop

end Sys2Proof.Machine
end

section
/-! PROOFS. The literals: an immediate after the opcode byte, complete or cut off (10_state.md R32), and the pushed value
(40_stack_ops.md R100, R102, R103). -/

namespace Sys2Proof.Machine

/-- Where `Fetch8(IP)` answers there is no restart, and the bytes after the opcode are all that is left of the program. -/
theorem restart_and_bytes_of_fetch8 {s : State} {op : Byte} (h : fetch8 s s.ip.toNat = some op) :
    restart s = s ∧ ∃ rest, bytesAtIp s = op :: rest ∧ s.ip.toNat + 1 + rest.length = s.codeSize := by
  have hlt := lt_codeSize_of_fetch8 h
  obtain ⟨rest, hb⟩ := bytesAtIp_of_fetch8 h
  have hlen := congrArg List.length hb
  rw [bytesAtIp, List.length_drop, List.length_cons, ← State.codeSize] at hlen
  exact ⟨restart_of_lt hlt, rest, hb, by omega⟩

section
variable {op : Byte} {w : Nat} (hw : op = 0x00 ∧ w = 4 ∨ op = 0x04 ∧ w = 1 ∨ op = 0x05 ∧ w = 2)
include hw

/-- With all immediate bytes there the instruction decodes, and its length is `1 + ImmWidth` (30_encoding.md R81). -/
theorem decode_complete {rest : List Byte} (hlen : w ≤ rest.length) :
    ∃ i, decode (op :: rest) = .ok i ∧ instrLength i = 1 + w := by
  rcases hw with ⟨rfl, rfl⟩ | ⟨rfl, rfl⟩ | ⟨rfl, rfl⟩
  · match rest, hlen with
    | _ :: _ :: _ :: _ :: _, _ => exact ⟨_, rfl, rfl⟩
  · match rest, hlen with
    | _ :: _, _ => exact ⟨_, rfl, rfl⟩
  · match rest, hlen with
    | _ :: _ :: _, _ => exact ⟨_, rfl, rfl⟩

/-- The three opcodes with an immediate differ in its width only (R32 steps T4 to T6). -/
theorem immediateRule : ImmediateRule op w := by
  refine ⟨fun s hf hsize => ?complete, fun _ hlen => decode_truncated hlen hw, fun s hf hsize => ?cutOff⟩
  case complete =>
    obtain ⟨hr, rest, hb, hlen⟩ := restart_and_bytes_of_fetch8 hf
    obtain ⟨i, hd, hi⟩ := decode_complete hw (rest := rest) (by omega)
    rw [← hb] at hd
    refine ⟨i, hd, ?_⟩
    rw [step_of_decode (by rw [hr]; exact hd), hr, hi]
    rfl
  case cutOff =>
    obtain ⟨hr, rest, hb, hlen⟩ := restart_and_bytes_of_fetch8 hf
    have hd := decode_truncated (rest := rest) (by omega) hw
    rw [← hb] at hd
    rw [step_of_truncated (by rw [hr]; exact hd), hr]
    rfl

end

theorem pushRule_of_exec {i : Instr} {v : Word} (h : ∀ s, exec i s = endTick (push v s)) : PushRule i v := by
  intro s
  rw [h]
  refine ⟨fun h0 => ?_, fun h1 _ => ?_⟩
  · rw [push_full v s h0]
    rfl
  · rw [push_room v s (sp_ne_zero _ h1)]
    rfl

theorem zext8_eq_ofNat (b : Byte) : zext8 b = BitVec.ofNat 32 b.toNat := (BitVec.ofNat_toNat 32 b).symm

theorem zext16_eq_ofNat (h : BitVec 16) : zext16 h = BitVec.ofNat 32 h.toNat := (BitVec.ofNat_toNat 32 h).symm

end Sys2Proof.Machine
end

section
/-! PROOFS. The stack manipulations by the number of live values and the range of the index (R101, R104 to R107). -/

namespace Sys2Proof.Machine

section
variable (s : State)

/-- An instruction that pops first, on an empty stack. -/
theorem endTick_pop_empty (f : Word → State → Micro Unit) (h : s.sp = 256) :
    endTick ((pop s).bind f) = .next { s with tickStatus := .error .stackUnderflow } := by
  rw [pop_empty s (by rw [h]; decide)]
  rfl

/-- An instruction that pops twice first, on a stack with one value: that value stays popped. -/
theorem endTick_popPair_one (f : Word × Word → State → Micro Unit) (h : s.sp = 255) :
    endTick ((popPair s).bind f) = .next { s with sp := 256, tickStatus := .error .stackUnderflow } := by
  have hsp : s.sp.toNat = 255 := by rw [h]; rfl
  rcases popPair_cases s with ⟨h', _⟩ | ⟨_, e⟩ | ⟨h', _⟩
  · omega
  · rw [e]
    rfl
  · omega

theorem popPair_live (h : s.sp.toNat ≤ 254) : popPair s = .done (s.nth 1, s.nth 0) { s with sp := s.sp + 2 } := by
  rcases popPair_cases s with ⟨h', _⟩ | ⟨h', _⟩ | ⟨_, e⟩
  · omega
  · omega
  · exact e

/-- Two pops in a row are `popPair`. -/
theorem pop_bind_pop {α : Type} (f : Word × Word → State → Micro α) :
    ((pop s).bind fun b s => (pop s).bind fun a s => f (a, b) s) = (popPair s).bind f := by
  rw [popPair]
  cases pop s with
  | raised e s => rfl
  | done b s => simp only [bind_done]; cases pop s <;> rfl

theorem exec_pop_live (h : s.sp.toNat ≤ 255) : exec .pop s = .next { s with sp := s.sp + 1, tickStatus := .ok } := by
  have hexec : exec .pop s = endTick ((pop s).bind fun _ s => .done () s) := rfl
  rw [hexec, pop_live s (by omega)]
  rfl

/-! ### `clone` (R104) -/

theorem indexFromSp_cloneOffset : indexFromSp s cloneOffset = s.sp.toNat := Int.add_zero _

theorem exec_clone :
    exec .clone s = endTick ((stackRead s.sp.toNat s).bind fun v s => push v s) := by
  rw [← indexFromSp_cloneOffset]
  rfl

theorem exec_clone_live (h : s.sp.toNat ≤ 255) : exec .clone s = endTick (push (s.nth 0) s) := by
  rw [exec_clone, stackRead_inside _ s (by omega) (by omega)]
  rfl

/-! ### `loads` (R105) -/

/-- The read happens after the pop, so the index counts from `SP + 1` (R105). -/
theorem exec_loads_live (h : s.sp.toNat ≤ 255) :
    exec .loads s = endTick
      ((stackRead ((s.sp.toNat : Int) + 1 + (s.nth 0).toInt) { s with sp := s.sp + 1 }).bind fun v s => push v s) := by
  have hexec : exec .loads s = endTick
      ((pop s).bind fun o s => (stackRead (indexFromSp s o.toInt) s).bind fun v s => push v s) := rfl
  have hindex (o : Int) : indexFromSp { s with sp := s.sp + 1 } o = (s.sp.toNat : Int) + 1 + o := by
    rw [indexFromSp, sp_add_one_toNat s.sp h, Nat.cast_add_one]
  rw [hexec, pop_live s (by omega), bind_done, hindex]
  rfl

/-! ### `stors` (R106) -/

theorem exec_stors : exec .stors s = endTick
    ((popPair s).bind fun p s => stackWrite (indexFromSp s p.2.toInt) p.1 s) := by
  rw [← pop_bind_pop]
  rfl

/-- The write happens after both pops, so the index counts from `SP + 2` (R106). -/
theorem exec_stors_live (h : s.sp.toNat ≤ 254) :
    exec .stors s = endTick
      (stackWrite ((s.sp.toNat : Int) + 2 + (s.nth 0).toInt) (s.nth 1) { s with sp := s.sp + 2 }) := by
  have hindex (o : Int) : indexFromSp { s with sp := s.sp + 2 } o = (s.sp.toNat : Int) + 2 + o := by
    rw [indexFromSp, sp_add_two_toNat s.sp h, Nat.cast_add, Nat.cast_two]
  rw [exec_stors, popPair_live s h, bind_done, hindex]

/-! ### `swap` (R107) -/

theorem exec_swap : exec .swap s = endTick
    ((popPair s).bind fun p s => (push p.2 s).bind fun _ s => push p.1 s) := by
  rw [← pop_bind_pop]
  rfl

theorem exec_swap_live (h : s.sp.toNat ≤ 254) :
    exec .swap s = .next
      { s with stack := setSlots (setSlots s.stack (s.sp.toNat + 1) (s.nth 0)) s.sp.toNat (s.nth 1),
               tickStatus := .ok } := by
  rw [exec_swap, popPair_live s h, bind_done, push_over_pair _ s h, bind_done,
    push_over_one _ { s with stack := setSlots s.stack (s.sp.toNat + 1) (s.nth 0) } (by show s.sp.toNat ≤ 255; omega)]
  rfl

end

/-- Reading a slot after writing two. -/
theorem slot_setSlots_setSlots {s t : State} {i j : Nat} {v w : Word} (hi : i < 256) (hj : j < 256)
    (h : t.stack = setSlots (setSlots s.stack i v) j w) (k : Nat) :
    t.slot k = if j = k then w else if i = k then v else s.slot k := by
  have ht : t.slot k = ((s.setSlot i v).setSlot j w).slot k := by rw [State.slot, h]; rfl
  rw [ht, slot_setSlot _ j k w hj, slot_setSlot s i k v hi]

end Sys2Proof.Machine
end

section
/-! PROOFS. The statements of 40_stack_ops.md. -/

namespace Sys2Proof.Machine

/-- Settles O19: the three ranges of the index are those of the read. -/
theorem loadsReadsTheSlotAtItsOffset : Obligations.LoadsReadsTheSlotAtItsOffset := by
  refine ⟨hasOpcode_of_wf rfl rfl, fun s => ⟨endTick_pop_empty s _, fun h hk => ?below, fun h hk => ?above,
    fun h k hk h255 => ?inside⟩⟩ <;> rw [exec_loads_live s h]
  case below =>
    rw [stackRead_below _ _ hk]
    rfl
  case above =>
    rw [stackRead_above _ _ hk]
    rfl
  case inside =>
    rw [← hk, stackRead_inside _ _ (by omega) (by omega), Int.toNat_natCast, bind_done, push_over_one _ s h]
    rfl

/-- Settles O20: the two pops of `popPair`, then the three ranges of the index are those of the write. -/
theorem storsWritesTheSlotAtItsOffset : Obligations.StorsWritesTheSlotAtItsOffset := by
  refine ⟨hasOpcode_of_wf rfl rfl, fun s => ⟨endTick_pop_empty s _, fun h => ?one, fun h hk => ?below,
    fun h hk => ?above, fun h k hk h255 => ?inside⟩⟩
  case one => rw [exec_stors, endTick_popPair_one s _ h]
  all_goals rw [exec_stors_live s h]
  case below =>
    rw [stackWrite_below _ _ _ hk]
    rfl
  case above =>
    rw [stackWrite_above _ _ _ hk]
    rfl
  case inside =>
    rw [← hk, stackWrite_inside _ _ _ (by omega) (by omega), Int.toNat_natCast]
    rfl

/-- Settles O14: the shared rules of an immediate and of a push, at four bytes. -/
theorem push32PushesItsImmediate : Obligations.Push32PushesItsImmediate :=
  ⟨fun _ _ _ _ _ => rfl, immediateRule (by decide), fun _ => ⟨rfl, pushRule_of_exec fun _ => rfl⟩⟩

/-- Settles O15: the same two rules at one byte, the value zero-extended. -/
theorem push8PushesItsImmediateZeroExtended : Obligations.Push8PushesItsImmediateZeroExtended :=
  ⟨fun _ _ => rfl, immediateRule (by decide),
    fun imm => ⟨rfl, zext8_eq_ofNat imm ▸ pushRule_of_exec fun _ => rfl⟩⟩

/-- Settles O16: the same two rules at two bytes, the value zero-extended. -/
theorem push16PushesItsImmediateZeroExtended : Obligations.Push16PushesItsImmediateZeroExtended :=
  ⟨fun _ _ _ => rfl, immediateRule (by decide),
    fun imm => ⟨rfl, zext16_eq_ofNat imm ▸ pushRule_of_exec fun _ => rfl⟩⟩

/-- Settles O17: by the two outcomes of `Pop`, which writes no slot. -/
theorem popDiscardsTheTop : Obligations.PopDiscardsTheTop :=
  ⟨hasOpcode_of_wf rfl rfl, fun s => ⟨endTick_pop_empty s _, exec_pop_live s⟩⟩

/-- Settles O18: on an empty stack the read underflows; else only the push can raise. -/
theorem cloneDuplicatesTheTop : Obligations.CloneDuplicatesTheTop := by
  refine ⟨hasOpcode_of_wf rfl rfl, fun s => ⟨fun h => ?empty, fun h => ?full, fun h1 h255 => ?room⟩⟩
  case empty =>
    rw [exec_clone, stackRead_above _ s (by rw [h]; decide)]
    rfl
  case full =>
    rw [exec_clone_live s (by rw [h]; decide), push_full _ s h]
    rfl
  case room =>
    rw [exec_clone_live s h255, push_room _ s (sp_ne_zero _ h1)]
    rfl

/-- Settles O21: the two slots written are different, so each holds the value pushed to it. -/
theorem swapExchangesTheTopTwo : Obligations.SwapExchangesTheTopTwo := by
  refine ⟨hasOpcode_of_wf rfl rfl, fun s => ⟨endTick_pop_empty s _, fun h => ?one,
    fun h => ⟨_, exec_swap_live s h, rfl, ?exchanged⟩⟩⟩
  case one => rw [exec_swap, endTick_popPair_one s _ h]
  case exchanged =>
    have hslot := slot_setSlots_setSlots (s := s)
      (t := { s with stack := setSlots (setSlots s.stack (s.sp.toNat + 1) (s.nth 0)) s.sp.toNat (s.nth 1),
                     tickStatus := .ok }) (by omega) (by omega) rfl
    refine ⟨?top, ?second, fun j h0 h1 => ?other⟩
    case top => exact (hslot _).trans (if_pos rfl)
    case second => exact (hslot _).trans ((if_neg (Nat.succ_ne_self _).symm).trans (if_pos rfl))
    case other => exact (hslot j).trans ((if_neg h0.symm).trans (if_neg h1.symm))

end Sys2Proof.Machine
end

section
/-! PROOFS. The statements of 41_load_store.md. -/

namespace Sys2Proof.Machine

/-- Settles O27: the two pops of `popPair`, then the four bytes of the word read at and outside its cells (R58). -/
theorem storeWritesTheWordAtTheAddress : Obligations.StoreWritesTheWordAtTheAddress := by
  refine ⟨hasOpcode_of_wf rfl rfl, fun s => ⟨endTick_pop_empty s _, fun h => ?one,
    fun h => ⟨_, exec_store_live s h, rfl, fun k a hk hcell => ?written, fun a hcells => ?kept⟩⟩⟩
  case one => rw [exec_store_popPair, endTick_popPair_one s _ h]
  case written => exact read_memWrite_of_cell s.mem (s.nth 1) hk hcell
  case kept => exact read_memWrite_of_not_cell s.mem (s.nth 1) hcells

/-- Settles O26: only the pop can raise, because the push takes the place the pop left free (R120). -/
theorem loadPushesTheWordAtTheAddress : Obligations.LoadPushesTheWordAtTheAddress :=
  ⟨hasOpcode_of_wf rfl rfl, fun s => ⟨endTick_pop_empty s _, exec_load_live s⟩⟩

end Sys2Proof.Machine
end

section
/-! PROOFS. The jumps by the number of live values: which pop fails, and where `IP` goes when none does (42_control.md R130
to R138). -/

namespace Sys2Proof.Machine

section
variable (s : State)

theorem exec_jmp_live (h : s.sp.toNat ≤ 255) :
    exec .jmp s = .next { s with sp := s.sp + 1, ip := s.nth 0, tickStatus := .ok } := by
  have hexec : exec .jmp s = endTick ((pop s).bind fun target s => jumpTo target s) := rfl
  rw [hexec, pop_live s (by omega)]
  rfl

theorem jumpIfOne_one (test : Word → Bool) (h : s.sp = 255) :
    jumpIfOne test s = .raised .stackUnderflow { s with sp := 256 } := by
  have hsp : s.sp.toNat = 255 := by rw [h]; rfl
  rcases jumpIfOne_cases test s with ⟨h', _⟩ | ⟨_, e⟩ | ⟨h', _⟩
  · omega
  · exact e
  · omega

theorem jumpIfOne_live (test : Word → Bool) (h : s.sp.toNat ≤ 254) :
    jumpIfOne test s =
      .done () { s with sp := s.sp + 2, ip := if test (s.nth 1) then s.nth 0 else s.ip } := by
  rcases jumpIfOne_cases test s with ⟨h', _⟩ | ⟨h', _⟩ | ⟨_, e⟩
  · omega
  · omega
  · exact e

theorem jumpIfTwo_one_or_two (test : Word → Word → Bool) (h : s.sp = 255 ∨ s.sp = 254) :
    jumpIfTwo test s = .raised .stackUnderflow { s with sp := 256 } := by
  have hsp : s.sp.toNat = 255 ∨ s.sp.toNat = 254 := h.imp (congrArg BitVec.toNat) (congrArg BitVec.toNat)
  rcases jumpIfTwo_cases test s with ⟨h', _⟩ | ⟨_, _, e⟩ | ⟨h', _⟩
  · omega
  · exact e
  · omega

theorem jumpIfTwo_live (test : Word → Word → Bool) (h : s.sp.toNat ≤ 253) :
    jumpIfTwo test s =
      .done () { s with sp := s.sp + 3, ip := if test (s.nth 2) (s.nth 1) then s.nth 0 else s.ip } := by
  rcases jumpIfTwo_cases test s with ⟨h', _⟩ | ⟨h', _, _⟩ | ⟨_, e⟩
  · omega
  · omega
  · exact e

end

section
variable {i : Instr} {op : Byte}

/-- An instruction that jumps on one value follows the rule of every condition that its test decides. -/
theorem jumpOneRule_of_exec {test : Word → Bool} {cond : Word → Prop} (hop : HasOpcode i op)
    (hexec : ∀ s, exec i s = endTick (jumpIfOne test s)) (htest : ∀ v, test v = true ↔ cond v) :
    JumpOneRule i op cond := by
  refine ⟨hop, fun s => ?_⟩
  rw [hexec]
  refine ⟨endTick_pop_empty s _, fun h => ?one, fun h hc => ?taken, fun h hc => ?notTaken⟩
  case one =>
    rw [jumpIfOne_one s test h]
    rfl
  case taken =>
    rw [jumpIfOne_live s test h, if_pos ((htest _).2 hc)]
    rfl
  case notTaken =>
    rw [jumpIfOne_live s test h, if_neg (mt (htest _).1 hc)]
    rfl

/-- An instruction that jumps on two values follows the rule of every condition that its test decides. -/
theorem jumpTwoRule_of_exec {test : Word → Word → Bool} {cond : Word → Word → Prop} (hop : HasOpcode i op)
    (hexec : ∀ s, exec i s = endTick (jumpIfTwo test s)) (htest : ∀ v1 v2, test v1 v2 = true ↔ cond v1 v2) :
    JumpTwoRule i op cond := by
  refine ⟨hop, fun s => ?_⟩
  rw [hexec]
  refine ⟨endTick_pop_empty s _, fun h => ?oneOrTwo, fun h hc => ?taken, fun h hc => ?notTaken⟩
  case oneOrTwo =>
    rw [jumpIfTwo_one_or_two s test h]
    rfl
  case taken =>
    rw [jumpIfTwo_live s test h, if_pos ((htest _ _).2 hc)]
    rfl
  case notTaken =>
    rw [jumpIfTwo_live s test h, if_neg (mt (htest _ _).1 hc)]
    rfl

end

/-! ### What the tests decide (R132 to R137, R139) -/

section
variable (v v1 v2 : Word)

theorem condZero_iff : condZero v = true ↔ v = 0 := beq_iff_eq

theorem condNotZero_iff : condNotZero v = true ↔ v ≠ 0 := bne_iff_ne

theorem condGreater_iff : condGreater v1 v2 = true ↔ v1.toInt > v2.toInt := decide_eq_true_iff

theorem condGreaterEq_iff : condGreaterEq v1 v2 = true ↔ v1.toInt ≥ v2.toInt := decide_eq_true_iff

theorem condEq_iff : condEq v1 v2 = true ↔ v1 = v2 := beq_iff_eq

theorem condNotEq_iff : condNotEq v1 v2 = true ↔ v1 ≠ v2 := bne_iff_ne

end

/-- A negative target is past the end of every program: as an unsigned number its pattern is at least `2^31`, and
`codeSize` is less (R30, R130). -/
theorem codeSize_le_of_negative {s : State} {target : Word} (hsize : s.codeSize ≤ 2 ^ 31 - 1) (hneg : target.toInt < 0) :
    s.codeSize ≤ target.toNat := by
  have hbig : 2 ^ 32 ≤ 2 * target.toNat := BitVec.toInt_neg_iff.1 hneg
  omega

end Sys2Proof.Machine
end

section
/-! PROOFS. The statements of 42_control.md. -/

namespace Sys2Proof.Machine

/-- Settles O33: either way the target is at least `codeSize` unsigned, so the jump ends the pass, and the tick from there
restarts (O6). -/
theorem jumpPastTheEndRestarts : Obligations.JumpPastTheEndRestarts := by
  intro s hsp htarget
  have hend : s.codeSize ≤ (s.nth 0).toNat :=
    htarget.elim id fun ⟨hsize, hneg⟩ => codeSize_le_of_negative hsize hneg
  exact ⟨_, exec_jmp_live s hsp, rfl, rfl, hend, restartIsPartOfTheSameTick _ hend⟩

/-- Settles O29: only the pop can raise, and it does so before the jump. -/
theorem jmpGoesToTheTarget : Obligations.JmpGoesToTheTarget :=
  ⟨hasOpcode_of_wf rfl rfl, fun s => ⟨endTick_pop_empty s _, exec_jmp_live s⟩⟩

/-- Settles O30: the shared rule of a jump on one value, at each of the two tests for zero. -/
theorem zeroTestJumps : Obligations.ZeroTestJumps :=
  ⟨jumpOneRule_of_exec (hasOpcode_of_wf rfl rfl) (fun _ => rfl) condZero_iff,
    jumpOneRule_of_exec (hasOpcode_of_wf rfl rfl) (fun _ => rfl) condNotZero_iff⟩

/-- Settles O31: the shared rule of a relational jump, at the two signed comparisons. -/
theorem orderedJumpsCompareSigned : Obligations.OrderedJumpsCompareSigned :=
  ⟨jumpTwoRule_of_exec (hasOpcode_of_wf rfl rfl) (fun _ => rfl) condGreater_iff,
    jumpTwoRule_of_exec (hasOpcode_of_wf rfl rfl) (fun _ => rfl) condGreaterEq_iff⟩

/-- Settles O32: the shared rule of a relational jump, at equality of patterns and its negation. -/
theorem equalityJumpsCompareAllBits : Obligations.EqualityJumpsCompareAllBits :=
  ⟨jumpTwoRule_of_exec (hasOpcode_of_wf rfl rfl) (fun _ => rfl) condEq_iff,
    jumpTwoRule_of_exec (hasOpcode_of_wf rfl rfl) (fun _ => rfl) condNotEq_iff⟩

end Sys2Proof.Machine
end

section
/-! PROOFS. The shared rules of 43_alu.md (R151): an instruction over one of the three operand patterns follows the rule of
every function that agrees with the one it computes. -/

namespace Sys2Proof.Machine

section
variable (s : State)

/-- An instruction that pops twice first, on an empty stack. -/
theorem endTick_popPair_empty (f : Word × Word → State → Micro Unit) (h : s.sp = 256) :
    endTick ((popPair s).bind f) = .next { s with tickStatus := .error .stackUnderflow } := by
  rw [← pop_bind_pop]
  exact endTick_pop_empty s _ h

theorem unaryOp_live (f : Word → Word) (h : s.sp.toNat ≤ 255) :
    unaryOp f s = .done () { s with stack := setSlots s.stack s.sp.toNat (f (s.nth 0)) } := by
  rcases unaryOp_cases f s with ⟨h', _⟩ | ⟨_, e⟩
  · omega
  · exact e

theorem binaryOp_live (f : Word → Word → Word) (h : s.sp.toNat ≤ 254) :
    binaryOp f s =
      .done () { s with sp := s.sp + 1, stack := setSlots s.stack (s.sp.toNat + 1) (f (s.nth 1) (s.nth 0)) } := by
  rcases binaryOp_cases f s with ⟨h', _⟩ | ⟨h', _⟩ | ⟨_, e⟩
  · omega
  · omega
  · exact e

theorem divideOp_zero (f : Word → Word → Word) (h : s.sp.toNat ≤ 254) (hz : s.nth 0 = 0) :
    divideOp f s = .raised .arithmeticError { s with sp := s.sp + 2 } := by
  rcases divideOp_cases f s with ⟨h', _⟩ | ⟨h', _⟩ | ⟨_, _, e⟩ | ⟨_, hn, _⟩
  · omega
  · omega
  · exact e
  · exact absurd hz hn

theorem divideOp_nonzero (f : Word → Word → Word) (h : s.sp.toNat ≤ 254) (hn : s.nth 0 ≠ 0) :
    divideOp f s =
      .done () { s with sp := s.sp + 1, stack := setSlots s.stack (s.sp.toNat + 1) (f (s.nth 1) (s.nth 0)) } := by
  rcases divideOp_cases f s with ⟨h', _⟩ | ⟨h', _⟩ | ⟨_, hz, _⟩ | ⟨_, _, e⟩
  · omega
  · omega
  · exact absurd hz hn
  · exact e

end

section
variable {i : Instr} {op : Byte}

theorem unaryRule_of_exec {f g : Word → Word} (hop : HasOpcode i op)
    (hexec : ∀ s, exec i s = endTick (unaryOp f s)) (hfg : ∀ v, f v = g v) : UnaryRule i op g := by
  obtain rfl : f = g := funext hfg
  refine ⟨hop, fun s => ?_⟩
  rw [hexec]
  refine ⟨endTick_pop_empty s _, fun h => ?live⟩
  case live =>
    rw [unaryOp_live s f h]
    rfl

theorem binaryRule_of_exec {f g : Word → Word → Word} (hop : HasOpcode i op)
    (hexec : ∀ s, exec i s = endTick (binaryOp f s)) (hfg : ∀ a b, f a b = g a b) : BinaryRule i op g := by
  obtain rfl : f = g := funext₂ hfg
  refine ⟨hop, fun s => ?_⟩
  rw [hexec]
  refine ⟨endTick_popPair_empty s _, endTick_popPair_one s _, fun h => ?live⟩
  case live =>
    rw [binaryOp_live s f h]
    rfl

theorem divideRule_of_exec {f g : Word → Word → Word} (hop : HasOpcode i op)
    (hexec : ∀ s, exec i s = endTick (divideOp f s)) (hfg : ∀ a b, f a b = g a b) : DivideRule i op g := by
  obtain rfl : f = g := funext₂ hfg
  refine ⟨hop, fun s => ?_⟩
  rw [hexec]
  refine ⟨endTick_popPair_empty s _, endTick_popPair_one s _, fun h hz => ?zero, fun h hn => ?nonzero⟩
  case zero =>
    rw [divideOp_zero s f h hz]
    rfl
  case nonzero =>
    rw [divideOp_nonzero s f h hn]
    rfl

end

end Sys2Proof.Machine
end

section
/-! PROOFS. The exact-integer values of 43_alu.md as 32-bit operations: `wrap32` is compatible with the ring operations, a
shift is by the low five bits, and quotient and remainder truncate (R150, R167, R168). -/

namespace Sys2Proof.Machine

/-! ### `wrap32` (00_scope.md R6) -/

section
variable (m n : Int) (v : Word)

theorem wrap32_toInt : wrap32 v.toInt = v := BitVec.ofInt_toInt

theorem wrap32_add : wrap32 (m + n) = wrap32 m + wrap32 n := BitVec.ofInt_add m n

theorem wrap32_neg : wrap32 (-m) = -wrap32 m := BitVec.ofInt_neg

theorem wrap32_sub : wrap32 (m - n) = wrap32 m - wrap32 n := by
  rw [Int.sub_eq_add_neg, wrap32_add, wrap32_neg, ← BitVec.sub_eq_add_neg]

theorem wrap32_mul : wrap32 (m * n) = wrap32 m * wrap32 n := BitVec.ofInt_mul m n

theorem wrap32_natCast (k : Nat) : wrap32 k = BitVec.ofNat 32 k := BitVec.ofInt_natCast 32 k

theorem wrap32_two_pow (k : Nat) : wrap32 (2 ^ k) = BitVec.twoPow 32 k := by
  have hcast := wrap32_natCast (2 ^ k)
  push_cast at hcast
  rw [hcast]
  exact BitVec.eq_of_toNat_eq (by rw [BitVec.toNat_ofNat, BitVec.toNat_twoPow])

end

/-- An exact result that is the signed value of a word narrows to that word. -/
theorem wrap32_eq_of_toInt {n : Int} {v : Word} (h : n = v.toInt) : wrap32 n = v := h ▸ wrap32_toInt v

section
variable (a b : Word)

/-! ### The ring operations (R156 to R159, R162, R165) -/

theorem aluInc_eq : aluInc a = a + 1 := by
  rw [aluInc, wrap32_add, wrap32_toInt]
  rfl

theorem aluDec_eq : aluDec a = a - 1 := by
  rw [aluDec, wrap32_sub, wrap32_toInt]
  rfl

theorem aluAdd_eq : aluAdd a b = a + b := by
  rw [aluAdd, wrap32_add, wrap32_toInt, wrap32_toInt]

theorem aluSub_eq : aluSub a b = a - b := by
  rw [aluSub, wrap32_sub, wrap32_toInt, wrap32_toInt]

theorem aluMul_eq : aluMul a b = a * b := by
  rw [aluMul, wrap32_mul, wrap32_toInt, wrap32_toInt]

theorem aluNeg_eq : aluNeg a = -a := by
  rw [aluNeg, wrap32_neg, wrap32_toInt]

/-- Signed values below 0 are the patterns with bit 31 set (R166). -/
theorem aluAbs_eq : aluAbs a = if a.msb then -a else a := by
  rw [aluAbs, BitVec.msb_eq_toInt, ← aluNeg, aluNeg_eq]
  simp only [decide_eq_true_eq]

/-- The inverse of every bit is `-v - 1` (R155). -/
theorem aluNot_eq_wrap32 : aluNot a = wrap32 (-a.toInt - 1) := by
  rw [wrap32_sub, wrap32_neg, wrap32_toInt, aluNot, BitVec.not_eq_neg_add]
  rfl

/-! ### The shifts (R160, R161, R167) -/

/-- The low five bits of `b`, as a number. -/
theorem shiftCount_eq : shiftCount b = b.toNat % 32 := by
  rw [shiftCount, BitVec.extractLsb'_toNat, Nat.shiftRight_zero]

/-- Only the low 32 bits of a product with `2^n` are kept, as a left shift keeps them. -/
theorem aluShl_eq : aluShl a b = a <<< (b.toNat % 32) := by
  rw [aluShl, shiftCount_eq, BitVec.shiftLeft_eq_mul_twoPow, wrap32_mul, wrap32_natCast,
    wrap32_two_pow, BitVec.ofNat_toNat, BitVec.setWidth_eq]

/-- An arithmetic shift rounds down, as `Int.fdiv` and, for a positive divisor, `Int`'s `/` do. -/
theorem aluShr_eq : aluShr a b = a.sshiftRight (b.toNat % 32) := by
  refine wrap32_eq_of_toInt ?_
  rw [shiftCount_eq, BitVec.toInt_sshiftRight, Int.shiftRight_eq_div_pow, Int.fdiv_eq_ediv_of_nonneg _ (by positivity)]
  norm_cast

/-! ### Quotient and remainder (R163, R164, R168) -/

theorem aluDiv_eq : aluDiv a b = a.sdiv b := by
  apply BitVec.eq_of_toInt_eq
  rw [aluDiv, wrap32, BitVec.toInt_ofInt, BitVec.toInt_sdiv]

theorem aluMod_eq : aluMod a b = a.srem b := by
  refine wrap32_eq_of_toInt ?_
  rw [BitVec.toInt_srem, Int.tmod_def, Int.mul_comm]

theorem toInt_aluMod : (aluMod a b).toInt = a.toInt.tmod b.toInt := by
  rw [aluMod_eq, BitVec.toInt_srem]

/-- Outside the one overflow case the truncated quotient fits in a word. -/
theorem toInt_aluDiv (h : ¬ (a = 0x80000000 ∧ b = 0xFFFFFFFF)) : (aluDiv a b).toInt = a.toInt.tdiv b.toInt := by
  rw [aluDiv_eq]
  exact BitVec.toInt_sdiv_of_ne_or_ne a b (not_and_or.1 h)

end

/-- The rule's floor of an exact quotient (R161), over the rationals. -/
theorem fdiv_two_pow_eq_floor (m : Int) (n : Nat) : Int.fdiv m (2 ^ n) = ⌊(m : ℚ) / 2 ^ n⌋ := by
  have hfloor := Rat.floor_intCast_div_natCast m (2 ^ n)
  push_cast at hfloor
  rw [hfloor, Int.fdiv_eq_ediv_of_nonneg m (by positivity)]

/-- The remainder of a truncating division is smaller than the divisor. -/
theorem natAbs_tmod_lt (m : Int) {n : Int} (h : n ≠ 0) : (m.tmod n).natAbs < n.natAbs := by
  rw [Int.natAbs_tmod]
  exact Nat.mod_lt _ (Int.natAbs_pos.2 h)

theorem tmod_nonpos {m : Int} (n : Int) (h : m ≤ 0) : m.tmod n ≤ 0 := by
  have hneg := Int.tmod_nonneg n (Int.neg_nonneg_of_nonpos h)
  rw [Int.neg_tmod] at hneg
  omega

end Sys2Proof.Machine
end

section
/-! PROOFS. The statements of 43_alu.md. -/

namespace Sys2Proof.Machine

/-- Settles O35: bitwise complement is `-v - 1` in two's complement. -/
theorem notInvertsEveryBit : Obligations.NotInvertsEveryBit := by
  refine ⟨unaryRule_of_exec (hasOpcode_of_wf rfl rfl) (fun _ => rfl) aluNot_eq_wrap32, fun v i hi => ?bits⟩
  case bits =>
    have hnot : BitVec.ofInt 32 (-v.toInt - 1) = ~~~v := (aluNot_eq_wrap32 v).symm
    rw [hnot, BitVec.getLsbD_not, decide_eq_true hi, Bool.true_and]

/-- Settles O38: the count is the low five bits, and dividing down is the floor of the exact quotient. -/
theorem shiftsUseTheLowFiveCountBits : Obligations.ShiftsUseTheLowFiveCountBits := by
  refine ⟨binaryRule_of_exec (hasOpcode_of_wf rfl rfl) (fun _ => rfl) fun a b => ?shl,
    binaryRule_of_exec (hasOpcode_of_wf rfl rfl) (fun _ => rfl) fun a b => ?shr⟩
  case shl => rw [aluShl, shiftCount_eq, wrap32]
  case shr => rw [aluShr, shiftCount_eq, fdiv_two_pow_eq_floor, wrap32]

/-- Settles O44: the overflow case is one closed computation; elsewhere quotient and remainder are the exact truncating
ones, so the laws are those of the integers. -/
theorem quotientAndRemainderFitTogether : Obligations.QuotientAndRemainderFitTogether := by
  intro a b hb
  refine ⟨?overflow, fun hfit => ?fits⟩
  case overflow =>
    rintro ⟨rfl, rfl⟩
    decide
  case fits =>
    have hb0 : b.toInt ≠ 0 := fun h => hb (BitVec.eq_of_toInt_eq h)
    rw [toInt_aluDiv a b hfit, toInt_aluMod]
    exact ⟨(Int.tdiv_mul_add_tmod _ _).symm, natAbs_tmod_lt _ hb0, Int.tmod_nonneg _, tmod_nonpos _⟩

/-- Settles O45: one equation per operation. -/
theorem arithmeticIsTwosComplement : Obligations.ArithmeticIsTwosComplement := fun a b =>
  ⟨aluAdd_eq a b, aluSub_eq a b, aluMul_eq a b, aluInc_eq a, aluDec_eq a, aluNeg_eq a, aluShl_eq a b, aluShr_eq a b,
    fun _ => ⟨aluDiv_eq a b, aluMod_eq a b⟩, aluAbs_eq a⟩

/-- Settles O34: the shared binary rule, at the three bitwise operations. -/
theorem bitwiseBinaryResults : Obligations.BitwiseBinaryResults :=
  ⟨binaryRule_of_exec (f := aluAnd) (hasOpcode_of_wf rfl rfl) (fun _ => rfl) fun _ _ => rfl,
    binaryRule_of_exec (f := aluOr) (hasOpcode_of_wf rfl rfl) (fun _ => rfl) fun _ _ => rfl,
    binaryRule_of_exec (f := aluXor) (hasOpcode_of_wf rfl rfl) (fun _ => rfl) fun _ _ => rfl⟩

/-- Settles O36: the shared unary rule, at the exact sum and difference with 1. -/
theorem incAndDecWrap : Obligations.IncAndDecWrap :=
  ⟨unaryRule_of_exec (f := aluInc) (hasOpcode_of_wf rfl rfl) (fun _ => rfl) fun _ => rfl,
    unaryRule_of_exec (f := aluDec) (hasOpcode_of_wf rfl rfl) (fun _ => rfl) fun _ => rfl⟩

/-- Settles O37: the shared binary rule, whose first operand is the value pushed first. -/
theorem addAndSubWrap : Obligations.AddAndSubWrap :=
  ⟨binaryRule_of_exec (f := aluAdd) (hasOpcode_of_wf rfl rfl) (fun _ => rfl) fun _ _ => rfl,
    binaryRule_of_exec (f := aluSub) (hasOpcode_of_wf rfl rfl) (fun _ => rfl) fun _ _ => rfl⟩

/-- Settles O39: the shared binary rule, at the exact product. -/
theorem mulKeepsTheLowWord : Obligations.MulKeepsTheLowWord :=
  binaryRule_of_exec (f := aluMul) (hasOpcode_of_wf rfl rfl) (fun _ => rfl) fun _ _ => rfl

/-- Settles O40: the shared rule of a division, at the truncated quotient. -/
theorem divTruncates : Obligations.DivTruncates :=
  divideRule_of_exec (f := aluDiv) (hasOpcode_of_wf rfl rfl) (fun _ => rfl) fun _ _ => rfl

/-- Settles O41: the shared rule of a division, at what the truncated quotient leaves over. -/
theorem modIsTheTruncatingRemainder : Obligations.ModIsTheTruncatingRemainder :=
  divideRule_of_exec (f := aluMod) (hasOpcode_of_wf rfl rfl) (fun _ => rfl) fun _ _ => rfl

/-- Settles O42: the shared unary rule, at the exact negation. -/
theorem negWraps : Obligations.NegWraps :=
  unaryRule_of_exec (f := aluNeg) (hasOpcode_of_wf rfl rfl) (fun _ => rfl) fun _ => rfl

/-- Settles O43: the shared unary rule, at the case split on the sign. -/
theorem absWraps : Obligations.AbsWraps :=
  unaryRule_of_exec (f := aluAbs) (hasOpcode_of_wf rfl rfl) (fun _ => rfl) fun _ => rfl

end Sys2Proof.Machine
end

section
/-! PROOFS. A tick always leaves a state, and never looks at the status recorded before it (60_exceptions.md R200, R209). -/

namespace Sys2Proof.Machine

/-- Whatever its micro-operations do, a tick leaves a state (R200, R206). -/
theorem endTick_next (m : Micro Unit) : ∃ t, endTick m = .next t := by
  cases m with
  | done a s => exact ⟨_, endTick_done a s⟩
  | raised e s => exact ⟨_, endTick_raised e s⟩

theorem exec_next (i : Instr) (s : State) : ∃ t, exec i s = .next t := by
  obtain ⟨op, _, e⟩ := exec_builtFor i
  rw [e]
  exact endTick_next (op s)

/-- The same outcome, but with `st` as the recorded status of the state it leaves. -/
def Micro.withStatus {α : Type} (st : Status) : Micro α → Micro α
  | .done a s => .done a { s with tickStatus := st }
  | .raised e s => .raised e { s with tickStatus := st }

/-- `op` does the same whatever status is recorded, and hands that status on. -/
def StatusBlind {α : Type} (op : State → Micro α) : Prop :=
  ∀ s st, op { s with tickStatus := st } = (op s).withStatus st

theorem push_statusBlind (v : Word) : StatusBlind (push v) := by
  intro s st
  rcases push_cases v s with ⟨h, e⟩ | ⟨h, e⟩ <;> rw [e]
  · exact push_full v { s with tickStatus := st } h
  · exact push_room v { s with tickStatus := st } h

theorem pop_statusBlind : StatusBlind pop := by
  intro s st
  rcases pop_cases s with ⟨h, e⟩ | ⟨h, e⟩ <;> rw [e]
  · exact pop_empty { s with tickStatus := st } h
  · exact pop_live { s with tickStatus := st } h

theorem stackRead_statusBlind (k : Int) : StatusBlind (stackRead k) := by
  intro s st
  rcases stackRead_cases k s with ⟨h, e⟩ | ⟨h, e⟩ | ⟨h, h', e⟩ <;> rw [e]
  · exact stackRead_below k _ h
  · exact stackRead_above k _ h
  · exact stackRead_inside k _ h (by omega)

theorem stackWrite_statusBlind (k : Int) (v : Word) : StatusBlind (stackWrite k v) := by
  intro s st
  rcases stackWrite_cases k v s with ⟨h, e⟩ | ⟨h, e⟩ | ⟨h, h', e⟩ <;> rw [e]
  · exact stackWrite_below k v _ h
  · exact stackWrite_above k v _ h
  · exact stackWrite_inside k v _ h (by omega)

theorem StatusBlind.bind {α β : Type} {f : State → Micro α} {g : α → State → Micro β} (hf : StatusBlind f)
    (hg : ∀ a, StatusBlind (g a)) : StatusBlind fun s => (f s).bind g := by
  intro s st
  change (f { s with tickStatus := st }).bind g = ((f s).bind g).withStatus st
  rw [hf s st]
  cases f s with
  | done a u => exact hg a u st
  | raised e u => rfl

/-- No micro-operation of any instruction looks at the recorded status. -/
theorem BuiltFor.statusBlind {i : Instr} {α : Type} {op : State → Micro α} (h : BuiltFor i op) : StatusBlind op := by
  induction h with
  | push v => exact push_statusBlind v
  | pop => exact pop_statusBlind
  | stackRead o => exact fun s => stackRead_statusBlind (indexFromSp s o) s
  | stackWrite o v => exact fun s => stackWrite_statusBlind (indexFromSp s o) v s
  | jumpTo _ target => exact fun _ _ => rfl
  | storeWord _ addr v => exact fun _ _ => rfl
  | pushLoaded _ addr => exact fun s => push_statusBlind (memRead s.mem addr) s
  | done a => exact fun _ _ => rfl
  | raise e => exact fun _ _ => rfl
  | bind _ _ ihf ihg => exact ihf.bind ihg

/-- The end of a tick overwrites the recorded status. -/
theorem endTick_withStatus (m : Micro Unit) (st : Status) : endTick (m.withStatus st) = endTick m := by
  cases m <;> rfl

theorem exec_withStatus (i : Instr) (s : State) (st : Status) : exec i { s with tickStatus := st } = exec i s := by
  obtain ⟨op, hop, e⟩ := exec_builtFor i
  rw [e, e, hop.statusBlind s st, endTick_withStatus]

theorem restart_withStatus (s : State) (st : Status) :
    restart { s with tickStatus := st } = { restart s with tickStatus := st } := by
  rcases restart_cases s with ⟨h, e⟩ | ⟨h, e⟩ <;> rw [e]
  · exact restart_of_le h
  · exact restart_of_lt h

end Sys2Proof.Machine
end

section
/-! PROOFS. The statements of 60_exceptions.md about the tick (R200, R204, R209). -/

namespace Sys2Proof.Machine

/-- Settles O9: a tick is `exec` of an instruction or a `FetchOutOfRange` already in a state, and `exec` ends with
`endTick`. -/
theorem everyTickLeavesAState : Obligations.EveryTickLeavesAState := by
  refine ⟨fun s => ?_, exec_next⟩
  rcases step_cases s with ⟨i, _, e⟩ | ⟨_, e⟩ | ⟨w, _, e⟩ <;> rw [e]
  · exact exec_next i _
  · exact ⟨_, rfl⟩
  · exact ⟨_, rfl⟩

/-- Settles O10: neither fetching nor any micro-operation looks at the recorded status, and every tick overwrites it. -/
theorem tickForgetsEarlierStatus : Obligations.TickForgetsEarlierStatus := by
  intro s st
  have hr := restart_withStatus s st
  have hbytes : bytesAtIp (restart { s with tickStatus := st }) = bytesAtIp (restart s) := by rw [hr]; rfl
  rcases step_cases s with ⟨i, hd, e⟩ | ⟨hd, e⟩ | ⟨w, hd, e⟩ <;> rw [e] <;> rw [← hbytes] at hd
  · rw [step_of_decode hd, hr]
    exact exec_withStatus i (advance (instrLength i) (restart s)) st
  · rw [step_of_noOpcode hd, hr]
    rfl
  · rw [step_of_truncated hd, hr]
    rfl

/-- Settles O7: an empty program restarts to no opcode byte; a cut-off immediate is the shared rule of immediates, and
`IP` then stands past the end because the sum does not wrap, so the next tick restarts (O6). -/
theorem fetchPastTheEndIsReported : Obligations.FetchPastTheEndIsReported := by
  refine fun s => ⟨fun hsize => ?empty, fun op w hw hsize hf hcut => ?cutOff⟩
  case empty =>
    have hr := restart_of_le (s := s) (by omega)
    have hb : bytesAtIp (restart s) = [] := by
      rw [bytesAtIp, restart_program, List.eq_nil_of_length_eq_zero hsize, List.drop_nil]
    rw [step_of_noOpcode (by rw [hb]; rfl), hr]
    rfl
  case cutOff =>
    obtain ⟨_, _, hstep⟩ := immediateRule hw
    have hlt := lt_codeSize_of_fetch8 hf
    have hassoc : s.ip + BitVec.ofNat 32 (1 + w) = s.ip + 1 + BitVec.ofNat 32 w := by
      rw [BitVec.ofNat_add, BitVec.add_assoc]
      rfl
    have hip : (s.ip + 1 + BitVec.ofNat 32 w).toNat = s.ip.toNat + (1 + w) := by
      have hw4 : w ≤ 4 := by omega
      rw [← hassoc, BitVec.toNat_add, BitVec.toNat_ofNat]
      omega
    have hend : s.codeSize < (s.ip + 1 + BitVec.ofNat 32 w).toNat := by omega
    have hs := hstep s hf hcut
    rw [hassoc] at hs
    exact ⟨_, hs, rfl, hend, restartIsPartOfTheSameTick _ hend.le⟩

end Sys2Proof.Machine
end

section
/-! PROOFS. The status each instruction ends with, in every state: `StackUnderflow` where an operand is missing, else what
`liveStatus` says (60_exceptions.md R201 to R203). -/

namespace Sys2Proof.Machine

/-- `i` takes operands and fewer are live than it takes. -/
def LacksOperands (i : Instr) (s : State) : Prop := 0 < valuesNeeded i ∧ 256 < s.sp.toNat + valuesNeeded i

/-- The status of an indexed access at index `k` (10_state.md R26). -/
def indexStatus (k : Int) : Status :=
  if k < 0 then .error .stackOverflow else if 256 ≤ k then .error .stackUnderflow else .ok

/-- The status `i` ends with where its operands are live. `exec_live` ties it to `exec`. -/
def liveStatus (i : Instr) (s : State) : Status :=
  match i with
  | .push32 _ | .push8 _ | .push16 _ | .clone => if s.sp = 0 then .error .stackOverflow else .ok
  | .loads => indexStatus ((s.sp.toNat : Int) + 1 + (s.nth 0).toInt)
  | .stors => indexStatus ((s.sp.toNat : Int) + 2 + (s.nth 0).toInt)
  | .div | .mod => if s.nth 0 = 0 then .error .arithmeticError else .ok
  | .pop | .load | .store | .swap | .jmp | .jz | .jnz | .jg | .jge | .je | .jne
  | .and | .or | .xor | .not | .inc | .dec | .add | .sub | .shl | .shr | .mul | .neg | .abs
  | .debug | .nop | .undefinedOpcode _ => .ok

/-- `exec i s` ends the tick with the status `st`. -/
def EndsWith (i : Instr) (s : State) (st : Status) : Prop := ∃ t, exec i s = .next t ∧ t.tickStatus = st

/-- The status a sequence of micro-operations ends the tick with (R206). -/
def Micro.status {α : Type} : Micro α → Status
  | .done _ _ => .ok
  | .raised e _ => .error e

section
variable {α : Type} (a : α) (e : TickError) (s : State)

@[simp] theorem status_done : (Micro.done a s).status = .ok := rfl

@[simp] theorem status_raised : (Micro.raised e s : Micro α).status = .error e := rfl

end

theorem endTick_status (m : Micro Unit) : ∃ t, endTick m = .next t ∧ t.tickStatus = m.status := by
  cases m with
  | done a s => exact ⟨_, rfl, rfl⟩
  | raised e s => exact ⟨_, rfl, rfl⟩

/-! ### The micro-operations -/

section
variable (s : State)

theorem push_status (v : Word) : (push v s).status = if s.sp = 0 then .error .stackOverflow else .ok := by
  rcases push_cases v s with ⟨h, e⟩ | ⟨h, e⟩ <;> rw [e]
  · exact (if_pos h).symm
  · exact (if_neg h).symm

theorem stackWrite_status (k : Int) (v : Word) : (stackWrite k v s).status = indexStatus k := by
  unfold stackWrite indexStatus
  split_ifs <;> rfl

/-- The push of `loads` cannot fail, because the pop left a slot free (R201). -/
theorem stackRead_push_status (k : Int) (h : s.sp.toNat ≤ 255) :
    ((stackRead k { s with sp := s.sp + 1 }).bind fun v s => push v s).status = indexStatus k := by
  unfold stackRead indexStatus
  split_ifs
  · rfl
  · rfl
  · rw [bind_done, push_over_one _ s h]
    rfl

theorem divideOp_status (f : Word → Word → Word) (h : s.sp.toNat ≤ 254) :
    (divideOp f s).status = if s.nth 0 = 0 then .error .arithmeticError else .ok := by
  by_cases hz : s.nth 0 = 0
  · rw [divideOp_zero s f h hz, if_pos hz]
    rfl
  · rw [divideOp_nonzero s f h hz, if_neg hz]
    rfl

/-! ### Underflow of the operands (R202) -/

theorem pop_bind_status_lacking {α : Type} (f : Word → State → Micro α) (h : 256 < s.sp.toNat + 1) :
    ((pop s).bind f).status = .error .stackUnderflow := by
  rw [pop_empty s (Nat.le_of_lt_succ h)]
  rfl

theorem popPair_bind_status_lacking {α : Type} (f : Word × Word → State → Micro α) (h : 256 < s.sp.toNat + 2) :
    ((popPair s).bind f).status = .error .stackUnderflow := by
  rcases popPair_cases s with ⟨_, e⟩ | ⟨_, e⟩ | ⟨h', _⟩
  · rw [e]
    rfl
  · rw [e]
    rfl
  · omega

theorem jumpIfOne_status_lacking (test : Word → Bool) (h : 256 < s.sp.toNat + 2) :
    (jumpIfOne test s).status = .error .stackUnderflow := by
  rcases jumpIfOne_cases test s with ⟨_, e⟩ | ⟨_, e⟩ | ⟨h', _⟩
  · rw [e]
    rfl
  · rw [e]
    rfl
  · omega

theorem jumpIfTwo_status_lacking (test : Word → Word → Bool) (h : 256 < s.sp.toNat + 3) :
    (jumpIfTwo test s).status = .error .stackUnderflow := by
  rcases jumpIfTwo_cases test s with ⟨_, e⟩ | ⟨_, _, e⟩ | ⟨h', _⟩
  · rw [e]
    rfl
  · rw [e]
    rfl
  · omega

end

end Sys2Proof.Machine
end

section
/-! PROOFS. Exactly when an instruction ends with which status. -/

namespace Sys2Proof.Machine

section
variable {i : Instr} {s : State}

theorem endsWith_of_endTick {m : Micro Unit} {st : Status} (he : exec i s = endTick m) (hm : m.status = st) :
    EndsWith i s st := by
  rw [EndsWith, he, ← hm]
  exact endTick_status m

/-- The status is determined by the instruction and the state. -/
theorem EndsWith.iff_eq {st st' : Status} (h : EndsWith i s st) : EndsWith i s st' ↔ st = st' := by
  obtain ⟨t, e, rfl⟩ := h
  constructor
  · rintro ⟨u, e', rfl⟩
    cases e.symm.trans e'
    rfl
  · rintro rfl
    exact ⟨t, e, rfl⟩

/-- An instruction that lacks an operand underflows: in a pop, or in the read of `clone` (R202). -/
theorem exec_lacking (h : LacksOperands i s) : EndsWith i s (.error .stackUnderflow) := by
  obtain ⟨hpos, hlack⟩ := h
  cases i with
  | push32 _ | push8 _ | push16 _ | debug | nop | undefinedOpcode _ => exact absurd hpos (Nat.lt_irrefl 0)
  | pop | load | loads | jmp | not | inc | dec | neg | abs =>
    exact endsWith_of_endTick rfl (pop_bind_status_lacking s _ hlack)
  | clone =>
    have hindex : (256 : Int) ≤ s.sp.toNat := Int.ofNat_le.2 (Nat.le_of_lt_succ hlack)
    exact endsWith_of_endTick (exec_clone s) (by rw [stackRead_above _ s hindex]; rfl)
  | store => exact endsWith_of_endTick (exec_store_popPair s) (popPair_bind_status_lacking s _ hlack)
  | stors => exact endsWith_of_endTick (exec_stors s) (popPair_bind_status_lacking s _ hlack)
  | swap => exact endsWith_of_endTick (exec_swap s) (popPair_bind_status_lacking s _ hlack)
  | and | or | xor | add | sub | shl | shr | mul | div | mod =>
    exact endsWith_of_endTick rfl (popPair_bind_status_lacking s _ hlack)
  | jz | jnz => exact endsWith_of_endTick rfl (jumpIfOne_status_lacking s _ hlack)
  | jg | jge | je | jne => exact endsWith_of_endTick rfl (jumpIfTwo_status_lacking s _ hlack)

theorem sp_le_of_not_lacking (h : ¬ LacksOperands i s) (hpos : 0 < valuesNeeded i) :
    s.sp.toNat ≤ 256 - valuesNeeded i := by
  rw [LacksOperands] at h
  omega

theorem not_lacking_of_sp (h : s.sp.toNat + valuesNeeded i ≤ 256) : ¬ LacksOperands i s :=
  fun hlack => Nat.not_lt.2 h hlack.2

/-- An instruction whose operands are live ends as `liveStatus` says. -/
theorem exec_live (h : ¬ LacksOperands i s) : EndsWith i s (liveStatus i s) := by
  have hsp := sp_le_of_not_lacking h
  cases i with
  | push32 _ | push8 _ | push16 _ => exact endsWith_of_endTick rfl (push_status s _)
  | clone => exact endsWith_of_endTick (exec_clone_live s (hsp Nat.one_pos)) (push_status s _)
  | loads =>
    exact endsWith_of_endTick (exec_loads_live s (hsp Nat.one_pos)) (stackRead_push_status s _ (hsp Nat.one_pos))
  | stors => exact endsWith_of_endTick (exec_stors_live s (hsp Nat.two_pos)) (stackWrite_status _ _ _)
  | pop => exact ⟨_, exec_pop_live s (hsp Nat.one_pos), rfl⟩
  | load => exact ⟨_, exec_load_live s (hsp Nat.one_pos), rfl⟩
  | store => exact ⟨_, exec_store_live s (hsp Nat.two_pos), rfl⟩
  | swap => exact ⟨_, exec_swap_live s (hsp Nat.two_pos), rfl⟩
  | jmp => exact ⟨_, exec_jmp_live s (hsp Nat.one_pos), rfl⟩
  | not | inc | dec | neg | abs =>
    exact endsWith_of_endTick rfl (congrArg Micro.status (unaryOp_live s _ (hsp Nat.one_pos)))
  | and | or | xor | add | sub | shl | shr | mul =>
    exact endsWith_of_endTick rfl (congrArg Micro.status (binaryOp_live s _ (hsp Nat.two_pos)))
  | div | mod => exact endsWith_of_endTick rfl (divideOp_status s _ (hsp Nat.two_pos))
  | jz | jnz => exact endsWith_of_endTick rfl (congrArg Micro.status (jumpIfOne_live s _ (hsp Nat.two_pos)))
  | jg | jge | je | jne =>
    exact endsWith_of_endTick rfl (congrArg Micro.status (jumpIfTwo_live s _ (hsp (Nat.succ_pos 2))))
  | debug | nop | undefinedOpcode _ => exact ⟨_, rfl, rfl⟩

/-- Exactly when an instruction raises `e`. -/
theorem exec_raises_iff (e : TickError) : (∃ t, exec i s = .next t ∧ t.tickStatus = .error e) ↔
    LacksOperands i s ∧ e = .stackUnderflow ∨ ¬ LacksOperands i s ∧ liveStatus i s = .error e := by
  change EndsWith i s (.error e) ↔ _
  by_cases h : LacksOperands i s
  · simp [(exec_lacking h).iff_eq, h, eq_comm]
  · simp [(exec_live h).iff_eq, h]

end

/-! ### When `liveStatus` is which error -/

theorem error_of_ite_iff {c : Prop} [Decidable c] {e e' : TickError} :
    (if c then Status.error e else .ok) = .error e' ↔ c ∧ e = e' := by
  by_cases h : c <;> simp [h]

section
variable (k : Int)

theorem indexStatus_overflow : indexStatus k = .error .stackOverflow ↔ k < 0 := by
  unfold indexStatus
  split_ifs with hneg <;> simp [hneg]

theorem indexStatus_underflow : indexStatus k = .error .stackUnderflow ↔ 256 ≤ k := by
  unfold indexStatus
  split_ifs with hneg hbig
  · simp only [Status.error.injEq, reduceCtorEq, false_iff]
    omega
  · simp [hbig]
  · simp [hbig]

theorem indexStatus_not_arithmetic : indexStatus k ≠ .error .arithmeticError := by
  unfold indexStatus
  split_ifs <;> simp

end

section
variable (i : Instr) (s : State)

/-- A push on a full stack and a negative index overflow (R201). -/
theorem liveStatus_overflow : liveStatus i s = .error .stackOverflow ↔
    ((∃ imm, i = .push32 imm) ∨ (∃ imm, i = .push8 imm) ∨ (∃ imm, i = .push16 imm) ∨ i = .clone) ∧ s.sp = 0 ∨
    i = .loads ∧ (s.sp.toNat : Int) + 1 + (s.nth 0).toInt < 0 ∨
    i = .stors ∧ (s.sp.toNat : Int) + 2 + (s.nth 0).toInt < 0 := by
  cases i with
  | loads | stors => simp [liveStatus, indexStatus_overflow]
  | div | mod => simp [liveStatus, error_of_ite_iff]
  | _ => simp [liveStatus]

/-- Where no operand is missing only an index of 256 or more underflows (R202). -/
theorem liveStatus_underflow : liveStatus i s = .error .stackUnderflow ↔
    i = .loads ∧ 256 ≤ (s.sp.toNat : Int) + 1 + (s.nth 0).toInt ∨
    i = .stors ∧ 256 ≤ (s.sp.toNat : Int) + 2 + (s.nth 0).toInt := by
  cases i with
  | loads | stors => simp [liveStatus, indexStatus_underflow]
  | push32 _ | push8 _ | push16 _ | clone | div | mod => simp [liveStatus, error_of_ite_iff]
  | _ => simp [liveStatus]

/-- Only a divisor 0 is an arithmetic error (R203). -/
theorem liveStatus_arithmetic : liveStatus i s = .error .arithmeticError ↔ (i = .div ∨ i = .mod) ∧ s.nth 0 = 0 := by
  cases i with
  | loads | stors => simp [liveStatus, indexStatus_not_arithmetic]
  | push32 _ | push8 _ | push16 _ | clone => simp [liveStatus, error_of_ite_iff]
  | _ => simp [liveStatus]

end

end Sys2Proof.Machine
end

section
/-! PROOFS. The statements of 60_exceptions.md about which instruction raises which error (R201 to R203). -/

namespace Sys2Proof.Machine

/-- Settles O47: a missing operand never overflows, and the literals and, on a full stack, `clone` lack none. -/
theorem overflowComesFromPushesAndIndexes : Obligations.OverflowComesFromPushesAndIndexes := by
  intro i s
  rw [exec_raises_iff, liveStatus_overflow]
  constructor
  · rintro (⟨_, h⟩ | ⟨hlive, hpush | ⟨rfl, hk⟩ | ⟨rfl, hk⟩⟩)
    · cases h
    · exact .inl hpush
    · exact .inr (.inl ⟨rfl, sp_le_of_not_lacking hlive Nat.one_pos, hk⟩)
    · exact .inr (.inr ⟨rfl, sp_le_of_not_lacking hlive Nat.two_pos, hk⟩)
  · rintro (⟨hi, hsp⟩ | ⟨rfl, hsp, hk⟩ | ⟨rfl, hsp, hk⟩)
    · refine .inr ⟨not_lacking_of_sp ?_, .inl ⟨hi, hsp⟩⟩
      rcases hi with ⟨_, rfl⟩ | ⟨_, rfl⟩ | ⟨_, rfl⟩ | rfl <;> simp [hsp, valuesNeeded]
    · exact .inr ⟨not_lacking_of_sp (Nat.succ_le_succ hsp), .inr (.inl ⟨rfl, hk⟩)⟩
    · exact .inr ⟨not_lacking_of_sp (Nat.add_le_add_right hsp 2), .inr (.inr ⟨rfl, hk⟩)⟩

/-- Settles O48: with `SP` at most 256 an instruction that takes no operand lacks none. -/
theorem underflowComesFromPopsAndIndexes : Obligations.UnderflowComesFromPopsAndIndexes := by
  intro i s hsp
  have hlack : LacksOperands i s ↔ 256 < s.sp.toNat + valuesNeeded i := by
    rw [LacksOperands]
    omega
  rw [exec_raises_iff, liveStatus_underflow, ← hlack]
  by_cases h : LacksOperands i s <;> simp [h]

/-- Settles O49: the rules of `div` and `mod` (O40, O41) say what such a tick leaves. -/
theorem arithmeticErrorIsDivisionByZero : Obligations.ArithmeticErrorIsDivisionByZero := by
  intro i s
  have hiff : (∃ t, exec i s = .next t ∧ t.tickStatus = .error .arithmeticError) ↔
      (i = .div ∨ i = .mod) ∧ s.sp.toNat ≤ 254 ∧ s.nth 0 = 0 := by
    rw [exec_raises_iff, liveStatus_arithmetic]
    constructor
    · rintro (⟨_, h⟩ | ⟨hlive, hi, hz⟩)
      · cases h
      · have hsp := sp_le_of_not_lacking hlive
        refine ⟨hi, ?_, hz⟩
        rcases hi with rfl | rfl <;> exact hsp Nat.two_pos
    · rintro ⟨hi, hsp, hz⟩
      refine .inr ⟨not_lacking_of_sp ?_, hi, hz⟩
      rcases hi with rfl | rfl <;> exact Nat.add_le_add_right hsp 2
  refine ⟨hiff, fun t ht herr => ?_⟩
  obtain ⟨hi, hsp, hz⟩ := hiff.1 ⟨t, ht, herr⟩
  have hexec : exec i s = .next { s with sp := s.sp + 2, tickStatus := .error .arithmeticError } := by
    rcases hi with rfl | rfl
    · obtain ⟨_, _, hzero, _⟩ := divTruncates.2 s
      exact hzero hsp hz
    · obtain ⟨_, _, hzero, _⟩ := modIsTheTruncatingRemainder.2 s
      exact hzero hsp hz
  cases ht.symm.trans hexec
  rfl

end Sys2Proof.Machine
end

section
/-! PROOFS. The host's operations (70_reset_and_hazards.md R230 to R233): what each can do, and that a property each of them
keeps holds at the end of every run. -/

namespace Sys2Proof.Machine

/-! ### What each operation does -/

section
variable {bytes : List Byte} {s t : State}

theorem hostLoad_accepted (s : State) (h : bytes.length ≤ Config.codeSizeMax) :
    hostLoad bytes s = .next { s with program := bytes, ip := 0, sp := 256 } := if_pos h

theorem hostLoad_tooLong (s : State) (h : Config.codeSizeMax < bytes.length) :
    hostLoad bytes s = .refused .programTooLong := if_neg (Nat.not_le.2 h)

/-- Everything a Load that is not refused can do (R231). -/
theorem hostLoad_next (h : hostLoad bytes s = .next t) :
    bytes.length ≤ Config.codeSizeMax ∧ t = { s with program := bytes, ip := 0, sp := 256 } := by
  rcases Nat.lt_or_ge Config.codeSizeMax bytes.length with hlen | hlen
  · cases (hostLoad_tooLong s hlen).symm.trans h
  · cases (hostLoad_accepted s hlen).symm.trans h
    exact ⟨hlen, rfl⟩

/-- Where memory lists no byte, every byte of the heap is 0 (D8). -/
theorem observeHeap_of_mem_nil (h : s.mem = []) (off : BitVec 12) : observeHeap s off = 0 := by
  rw [observeHeap, h]
  rfl

/-- Where memory lists no byte, every byte of the graphics region is 0 (D8). -/
theorem observeGfx_of_mem_nil (h : s.mem = []) (off : BitVec 10) : observeGfx s off = 0 := by
  rw [observeGfx, h]
  rfl

end

/-! ### Runs -/

/-- A run that is not refused is its first operation, then the run of the others. -/
theorem hostRun_cons {op : HostOp} {ops : List HostOp} {s u : State} :
    hostRun (op :: ops) s = .next u ↔ ∃ t, hostStep op s = .next t ∧ hostRun ops t = .next u := by
  rw [hostRun]
  cases hostStep op s <;> simp

/-- What every host operation keeps, every run keeps. -/
theorem hostRun_keeps {P : State → Prop} (hP : ∀ op s t, P s → hostStep op s = .next t → P t) {ops : List HostOp}
    {s u : State} (hs : P s) (h : hostRun ops s = .next u) : P u := by
  induction ops generalizing s with
  | nil =>
    cases h
    exact hs
  | cons op ops ih =>
    obtain ⟨t, hop, hops⟩ := hostRun_cons.1 h
    exact ih (hP op s t hs hop) hops

/-! ### The invariant of the host's runs -/

/-- The step invariant, with the bound on the program that Load enforces and `State.Inv` forgets (R30, R231). -/
structure HostInv (s : State) : Prop where
  inv : s.Inv
  codeSize_le : s.codeSize ≤ Config.codeSizeMax

/-- All the spec fixes about `CODE_SIZE_MAX` (R5, D5). -/
theorem codeSizeMax_le : Config.codeSizeMax ≤ 2 ^ 31 - 1 :=
  Nat.le_sub_one_of_lt Config.codeSizeMaxBits.isLt

theorem powerOn_hostInv (contents : Slots) : HostInv (powerOn contents) :=
  ⟨⟨rfl, Nat.le_refl 256, Nat.zero_le _⟩, Nat.zero_le _⟩

section
variable {s t : State}

theorem hostLoad_hostInv {bytes : List Byte} (hs : HostInv s) (h : hostLoad bytes s = .next t) : HostInv t := by
  obtain ⟨hlen, rfl⟩ := hostLoad_next h
  obtain ⟨hmem, _, _⟩ := hs.inv
  exact ⟨⟨hmem, Nat.le_refl 256, hlen.trans codeSizeMax_le⟩, hlen⟩

theorem hostClear_hostInv (hs : HostInv s) : HostInv (hostClear s) := by
  obtain ⟨_, hsp, hsize⟩ := hs.inv
  exact ⟨⟨rfl, hsp, hsize⟩, hs.codeSize_le⟩

/-- A tick keeps `State.Inv` (O55) and the program (O57). -/
theorem step_hostInv (hs : HostInv s) (h : step s = .next t) : HostInv t where
  inv := everyStepKeepsTheInvariant s t hs.inv h
  codeSize_le := by
    rw [State.codeSize, noTickWritesTheProgram s t h]
    exact hs.codeSize_le

end

theorem hostStep_hostInv (op : HostOp) (s t : State) (hs : HostInv s) (h : hostStep op s = .next t) : HostInv t := by
  cases op with
  | powerOn contents =>
    cases h
    exact powerOn_hostInv contents
  | load bytes => exact hostLoad_hostInv hs h
  | tick => exact step_hostInv hs h
  | clear =>
    cases h
    exact hostClear_hostInv hs

end Sys2Proof.Machine
end

section
/-! PROOFS. The statements of 70_reset_and_hazards.md. -/

namespace Sys2Proof.Machine

/-- Settles O56: PowerOn establishes `HostInv`, and each of the four operations keeps it. -/
theorem everyHostRunKeepsTheInvariant : Obligations.EveryHostRunKeepsTheInvariant := by
  intro ops contents t h
  obtain ⟨hinv, hsize⟩ := hostRun_keeps hostStep_hostInv (powerOn_hostInv contents) h
  exact ⟨hinv, hsize⟩

/-- Settles O50: memory lists no byte after PowerOn, and the reset state is PowerOn with its own slots. -/
theorem powerOnValues : Obligations.PowerOnValues :=
  ⟨fun _ => ⟨rfl, rfl, observeHeap_of_mem_nil rfl, observeGfx_of_mem_nil rfl, rfl, rfl, rfl⟩, State.reset.stack, rfl⟩

/-- Settles O51: after the empty Load a tick finds no opcode byte (O7), and what it leaves is already restarted and
already holds that status, so the next tick changes nothing. -/
theorem loadInstallsTheProgram : Obligations.LoadInstallsTheProgram := by
  intro s bytes
  have hempty : ∀ t : State, t.codeSize = 0 →
      step t = .next { t with ip := 0, sp := 256, tickStatus := .error .fetchOutOfRange } :=
    fun t => (fetchPastTheEndIsReported t).1
  exact ⟨hostLoad_accepted s, hostLoad_tooLong s, _, _, hostLoad_accepted s (Nat.zero_le _), hempty _ rfl, rfl,
    hempty _ rfl⟩

/-- Settles O52: after Clear memory lists no byte. -/
theorem clearZeroesBothRegions : Obligations.ClearZeroesBothRegions :=
  fun s => ⟨observeHeap_of_mem_nil (hostClear_mem s), observeGfx_of_mem_nil (hostClear_mem s), rfl⟩

/-- Settles O53: both Loads are accepted; Clear has emptied memory, and Load writes all else that PowerOn writes. -/
theorem clearThenLoadRestoresAllButTheStack : Obligations.ClearThenLoadRestoresAllButTheStack :=
  fun s _ hlen => ⟨_, _, hostLoad_accepted (hostClear s) hlen, hostLoad_accepted (powerOn s.stack) hlen, rfl⟩

end Sys2Proof.Machine
end
